-- ==== Sys2Proof/Word.lean ====
section
/-! DEFINITION. The word types of the block (spec/00_scope.md R6, R7, R8). Bit 0 of every value is its least significant
bit and every value is unsigned (R7). -/

namespace Sys2Proof

/-- An 8-bit value: a ROM entry, `OFFSET`, the accumulator, an ECC value (R6 `ECC_W`). -/
abbrev Byte := BitVec 8

/-- The 64-bit data word (R6 `DATA_W`, R60). -/
abbrev DataWord := BitVec 64

/-- A bit index and ROM address, 0..63 (R25, R40). -/
abbrev Index := BitVec 6

/-- A finite, possibly empty sequence of abstract characters; its length counts characters (R120). -/
abbrev Text := List Char

end Sys2Proof
end

