-- ==== Sys2Proof/Config.lean ====
section
/-! DEFINITION. What the spec leaves open: constants with no body, so that no proof can see a value and every claim
holds for every value (spec/93_implementation_defined.md U1, U2, U3). -/

namespace Sys2Proof.Config

/-- The open contents of the parity ROM (R6 `PARITY_ROM`, R47, U1). `Sys2Proof.Machine.romFrom` turns any such function into a
table that satisfies R43 to R46, and reaches every such table. Log entry 1. -/
opaque openEntry : Index → Byte

/-- The unspecified value of `ACC` after the `n`-th reset of the run (R35, U3: a draw). Log entry 2. -/
opaque freeAcc : Nat → Byte

/-- The unspecified value of `DREG` after the `n`-th reset of the run (R35, U3: a draw). Log entry 2. -/
opaque freeDreg : Nat → DataWord

/-- The unspecified value of `IDX` after the `n`-th reset of the run (R35, U3: a draw). Log entry 2. -/
opaque freeIdx : Nat → Index

/-- The unspecified value a host sees on port `ecc` while `done = 0` (R29, U2: a fresh draw at every read). Log entry 3. -/
opaque freeEcc : Nat → Byte

end Sys2Proof.Config
end

