-- ==== Sys2Proof/Syntax.lean ====
section
/-! DEFINITION. The operations of the block, one constructor for each row of spec/opcode_table.json (R65, R72), the raw forms
they are read from (the formats of R60, R62, R66) and the two error kinds (R140). -/

namespace Sys2Proof

/-- The operation set (R65). The block has no opcode: an operation is selected by the interface it comes in at. -/
inductive Instr where
  /-- ENCODE: the 64-bit request `d` on port `din` (R60, R80). -/
  | encode (d : DataWord)
  /-- ENCODE_HEX: a text request, any string (R62, R125). -/
  | encodeHex (t : Text)
  /-- LOAD: the micro-step of sequencer word `00xxxxxx`; `x` is `IDX`, not examined (R66, R100). -/
  | load (x : Index)
  /-- ACCUM at index `i`: the micro-step of sequencer word `01iiiiii` (R66, R101). -/
  | accum (i : Index)
  /-- OFFS: the micro-step of sequencer word `10xxxxxx`; `x` is `IDX`, not examined (R66, R102). -/
  | offs (x : Index)
  deriving DecidableEq, Repr

/-- An operation as it stands at its interface, before decoding: a word on port `din` (format REQ64, R60), a string
(format HEX16, R62), or the sequencer word `PH[1:0] ++ IDX[5:0]` (format SEQ8, R66). -/
inductive Raw where
  | req64 (w : DataWord)
  | hex16 (cs : Text)
  | seq8 (q : BitVec 8)
  deriving DecidableEq, Repr

/-- The two input-validation errors, distinct and enumerated (R140). -/
inductive TextError where
  /-- The string does not have exactly 16 characters (R141). -/
  | invalidLength
  /-- The string has 16 characters and one of them is outside the hexadecimal alphabet (R142). -/
  | invalidFormat
  deriving DecidableEq, Repr

end Sys2Proof
end

