-- ==== Sys2Proof/Machine/HexText.lean ====
section
/-! DEFINITION. The text forms: the hexadecimal alphabet, `HexVal`, `ParseHex16`, `FormatHex2` and the error codes
(spec/42_host_text_interface.md R120 to R124, spec/30_encoding.md R62 to R64, spec/60_exceptions.md R140). -/

namespace Sys2Proof.Machine

/-- The 22 characters of the alphabet with their values (R120, R121). -/
def hexTable : List (Char × Nat) :=
  [('0', 0), ('1', 1), ('2', 2), ('3', 3), ('4', 4), ('5', 5), ('6', 6), ('7', 7), ('8', 8), ('9', 9)] ++
  [('a', 10), ('b', 11), ('c', 12), ('d', 13), ('e', 14), ('f', 15)] ++
  [('A', 10), ('B', 11), ('C', 12), ('D', 13), ('E', 14), ('F', 15)]

/-- `HexVal` (R121); nothing outside the alphabet. -/
def hexVal (c : Char) : Option Nat := hexTable.lookup c

/-- Whether a character belongs to the alphabet of R120. -/
def inAlphabet (c : Char) : Bool := (hexVal c).isSome

/-- The value of a character inside a string that has been validated; `ParseHex16` uses it on no other string. -/
def digitVal (c : Char) : Nat := (hexVal c).getD 0

/-- The positional value of a string of hexadecimal digits, the leftmost digit the most significant (R50, R64). -/
def hexSum (t : Text) : Nat := t.foldl (fun v c => 16 * v + digitVal c) 0

/-- `ParseHex16` (R122): the length is tested first (R145), then the alphabet, and nothing is normalised (R123). -/
def parseHex16 (t : Text) : Except TextError DataWord :=
  if t.length = 16 then
    if t.all inAlphabet then .ok (BitVec.ofNat 64 (hexSum t)) else .error .invalidFormat
  else .error .invalidLength

/-- `Digit` (R124): the lowercase hexadecimal digit of a 4-bit value. -/
def hexDigit (v : BitVec 4) : Char :=
  ['0', '1', '2', '3', '4', '5', '6', '7', '8', '9', 'a', 'b', 'c', 'd', 'e', 'f'].getD v.toNat '0'

/-- `FormatHex2` (R124, format HEX2 of R63): bits 7:4 first, then bits 3:0, always two lowercase characters. -/
def formatHex2 (e : Byte) : Text :=
  [hexDigit (e.extractLsb' 4 4), hexDigit (e.extractLsb' 0 4)]

/-- The HEX16 text of a data word in lowercase digits: character `k` carries bits 63-4k down to 60-4k (R62). -/
def hexText (d : DataWord) : Text :=
  (List.range 16).map fun k => hexDigit (d.extractLsb' (60 - 4 * k) 4)

/-- The numeric error codes: 0 is no error (R140). -/
def errorCode : Option TextError → Nat
  | none => 0
  | some .invalidLength => 1
  | some .invalidFormat => 2

end Sys2Proof.Machine
end

