-- ==== Sys2Proof/WellFormed.lean ====
section
/-! DEFINITION. Which operations are valid forms of the spec. Every 64-bit request is valid (R67), every index of a micro-step
is a value of `IDX`, and a text request is valid iff it has exactly 16 characters of the hexadecimal alphabet (R68). An
invalid text request is still executed: it raises one of the two errors (R141, R142). -/

namespace Sys2Proof

/-- The length check of R68. -/
def lengthOk (t : Text) : Bool := t.length == 16

/-- The alphabet check of R68. -/
def alphabetOk (t : Text) : Bool := t.all Machine.inAlphabet

/-- The valid forms (R67, R68). -/
def Instr.wellFormed : Instr → Bool
  | .encode _ => true
  | .encodeHex t => lengthOk t && alphabetOk t
  | .load _ => true
  | .accum _ => true
  | .offs _ => true

end Sys2Proof
end

