-- ==== Sys2Proof/Decode.lean ====
section
/-! DEFINITION. The decoder, total on every raw form, the encoder, and the reading of the opcode table's numbered bits
(spec/30_encoding.md R60, R62, R65, R66, R68; spec/opcode_table.json). The block fetches no byte stream: an operation is
one 64-bit word, one string or one 8-bit sequencer word, so the decoder reads those. -/

namespace Sys2Proof

/-- Why a raw form is rejected. -/
inductive DecodeError where
  /-- A sequencer word `11xxxxxx`: the phase value `0b11` is unused and has no step (R66, R68, U5). -/
  | unusedPhase
  deriving DecidableEq, Repr

/-- The SEQ8 rows: mask `0xC0`, match `0x00`, `0x40`, `0x80`; bits 5:0 are the index (R66). -/
def decodeSeq (q : BitVec 8) : Except DecodeError Instr :=
  if q &&& 0xC0#8 = 0x00#8 then .ok (.load (q.extractLsb' 0 6))
  else if q &&& 0xC0#8 = 0x40#8 then .ok (.accum (q.extractLsb' 0 6))
  else if q &&& 0xC0#8 = 0x80#8 then .ok (.offs (q.extractLsb' 0 6))
  else .error .unusedPhase

/-- The operation a raw form stands for. Every 64-bit request is an ENCODE and every string an ENCODE_HEX request (R65, R67,
R68). -/
def decode : Raw → Except DecodeError Instr
  | .req64 w => .ok (.encode w)
  | .hex16 cs => .ok (.encodeHex cs)
  | .seq8 q => decodeSeq q

/-- The raw form of an operation, from the same table (R65, R66). -/
def encode : Instr → Raw
  | .encode d => .req64 d
  | .encodeHex t => .hex16 t
  | .load x => .seq8 (0b00#2 ++ x)
  | .accum i => .seq8 (0b01#2 ++ i)
  | .offs x => .seq8 (0b10#2 ++ x)

/-- The string that 16 table bits stand for: the row ENCODE_HEX is a pattern of 16 CHARACTERS, so the bit of a position gives
the digit `0` or `1` of that character, the leftmost character being bit 15. Log entry 8. -/
def tableChars (w : Nat) : Text :=
  (List.range 16).map fun k => if w.testBit (15 - k) then '1' else '0'

/-- The string that 128 bits stand for: 16 code points of 8 bits, the first character in bits 7:0 (K1 of
spec/93_implementation_defined.md). Log entry 8. -/
def codeChars (w : Nat) : Text :=
  (List.range 16).map fun k => Char.ofNat ((w >>> (8 * k)) % 256)

/-- The raw form whose bits, numbered as spec/opcode_table.json numbers them, are `w`. The number of bits tells the formats
apart: 64 for REQ64, 16 positions (or 128 bits of code points) for HEX16, 8 for SEQ8. Log entry 8. -/
def rawOfTable (nbits w : Nat) : Option Raw :=
  if nbits = 64 then some (.req64 (BitVec.ofNat 64 w))
  else if nbits = 16 then some (.hex16 (tableChars w))
  else if nbits = 128 then some (.hex16 (codeChars w))
  else if nbits = 8 then some (.seq8 (BitVec.ofNat 8 w))
  else none

/-- What the decoder reads from an operation whose table bits are `w`. -/
def decodeTableWord (nbits w : Nat) : Option Instr :=
  match rawOfTable nbits w with
  | none => none
  | some r =>
    match decode r with
    | .ok i => some i
    | .error _ => none

end Sys2Proof
end

