-- ==== Sys2Proof/Machine/State.lean ====
section
/-! DEFINITION. The state: the encoder instances (spec/10_state.md R20, R28), the host's pending actions, what the host got
back last, and the counter of the free values. The ROM and `OFFSET` are configuration, not state (R20, R14). -/

namespace Sys2Proof.Machine

/-- The phase register `PH` (R26). -/
inductive Phase where
  /-- No operation in progress. -/
  | idle
  /-- The accumulation loop is running. -/
  | accum
  /-- The loop is complete, the offset is not yet applied. -/
  | offs
  deriving DecidableEq, Repr

/-- One encoder instance: the complete state `(PH, DONE, DREG, IDX, ACC)` of R20, and the levels the host drives on its input
ports `req` and `din` (R28). -/
structure Encoder where
  /-- `PH` (R26). -/
  ph : Phase
  /-- `DONE`, the result-valid flag (R27). -/
  done : Bool
  /-- `DREG`, the data-word register (R24). -/
  dreg : DataWord
  /-- `IDX`, the bit index (R25). -/
  idx : Index
  /-- `ACC`, the accumulator (R23). -/
  acc : Byte
  /-- The level on port `req` (R28). -/
  req : Bool
  /-- The word on port `din` (R28). -/
  din : DataWord
  deriving DecidableEq, Repr

/-- What a host may do to an instance (R127, R70). -/
inductive HostAction where
  /-- Ask for the ENCODE of a word and hold the request until it is taken (R127, R166; the atomic view of R107). -/
  | request (d : DataWord)
  /-- Call the text operation with any string (R125). -/
  | call (t : Text)
  /-- Set the levels of the input ports `req` and `din`: present, change or withdraw a request (R28, R166). -/
  | drive (req : Bool) (din : DataWord)
  /-- One event on `clk`: the instance takes its enabled micro-step, if it has one (R28, R103). -/
  | clock
  /-- Assert `rst` (R160). -/
  | reset
  /-- Read the output ports `ready`, `done`, `ecc` (R109, R127). -/
  | read
  deriving DecidableEq, Repr

/-- A host action and the number of the instance it is addressed to (the prefix `u0:` of R70, R151). -/
structure HostCmd where
  target : Nat
  action : HostAction
  deriving DecidableEq, Repr

/-- What the host gets back (R127). -/
inductive Reply where
  /-- The string that ENCODE_HEX returns (R125). -/
  | text (t : Text)
  /-- The error that ENCODE_HEX raises, handed to the caller (R146). -/
  | error (e : TextError)
  /-- The values read on the output ports (R28). -/
  | sample (ready done : Bool) (ecc : Byte)
  deriving DecidableEq, Repr

/-- The whole machine. The instances stand in a row, `before ++ unit :: after`, and `unit` is the one addressed now, so there is
always at least one (R6 `N_INSTANCES`, R151). The fields `host`, `reply` and `draws` are the model's own. -/
structure State where
  /-- The instances with smaller numbers than `unit`. -/
  before : List Encoder
  /-- The instance the present action or clock event concerns. -/
  unit : Encoder
  /-- The instances with larger numbers than `unit`. -/
  after : List Encoder
  /-- The host's pending actions, oldest first (R175). -/
  host : List HostCmd
  /-- What the host got back last. -/
  reply : Option Reply
  /-- How many free values have been drawn (U2, U3). -/
  draws : Nat
  deriving DecidableEq, Repr

/-- Why the machine stops with a fault. -/
inductive Fault where
  /-- Raised by `step` when the oldest host action is addressed to an instance that does not exist. Safe: the model stops.
  Log entry 6. -/
  | noSuchInstance
  deriving DecidableEq, Repr

/-- Why the machine gives no meaning. -/
inductive Refusal where
  /-- Raised by an arm of `exec` for an operation without a meaning. No arm does. Safe: the model stops. -/
  | notModelled (mnemonic : String)
  /-- Raised by `step` for a raw form the decoder rejects. No host action has one (R67, R68). Safe: the model stops. -/
  | undecodable (e : DecodeError)
  deriving DecidableEq, Repr

/-- An instance right after its reset: `PH = IDLE`, `DONE = 0`, and `ACC`, `DREG`, `IDX` unspecified, here the draws of number
`n` (R35, R160). No request is presented (log entry 5). -/
def Encoder.atReset (n : Nat) : Encoder where
  ph := .idle
  done := false
  dreg := Config.freeDreg n
  idx := Config.freeIdx n
  acc := Config.freeAcc n
  req := false
  din := 0#64

/-- The machine right after every one of its `more + 1` instances was reset, with no host action pending (R35, R151, R163). -/
def State.resetWith (more : Nat) : State where
  before := []
  unit := Encoder.atReset 0
  after := (List.range more).map fun k => Encoder.atReset (k + 1)
  host := []
  reply := none
  draws := more + 1

/-- The machine right after reset, with one instance (log entry 7). -/
def State.reset : State := State.resetWith 0

end Sys2Proof.Machine
end

