-- ==== Sys2Proof/Machine/Flags.lean ====
section
/-! DEFINITION. The flag-like state. The block has no arithmetic flag (R33); it has the phase, its numeric encoding, and the
output ports `ready`, `done`, `ecc` (R26, R28, R29). -/

namespace Sys2Proof.Machine

/-- The numeric encoding of the phase (R26): `0b11` is never produced. -/
def Phase.code : Phase → BitVec 2
  | .idle => 0b00#2
  | .accum => 0b01#2
  | .offs => 0b10#2

/-- The sequencer word `PH[1:0] ++ IDX[5:0]` (R66). -/
def Encoder.seqWord (u : Encoder) : BitVec 8 := u.ph.code ++ u.idx

/-- Port `ready`: 1 iff `PH = IDLE` (R28). -/
def Encoder.ready (u : Encoder) : Bool := u.ph == .idle

/-- Port `done`: the flag `DONE` (R28). -/
def Encoder.doneOut (u : Encoder) : Bool := u.done

/-- Port `ecc`: `ACC` while `done = 1`, otherwise the unspecified value `draw` (R28, R29). -/
def Encoder.eccOut (u : Encoder) (draw : Byte) : Byte := if u.done then u.acc else draw

/-- The result-valid flag goes up: OFFS and the atomic ENCODE (R102, R107). -/
def Encoder.setDone (u : Encoder) : Encoder := { u with done := true }

/-- The result-valid flag goes down: LOAD and reset (R100, R160). -/
def Encoder.clearDone (u : Encoder) : Encoder := { u with done := false }

end Sys2Proof.Machine
end

