-- ==== Sys2Proof/Machine/Rom.lean ====
section
/-! DEFINITION. The constants of the block: the parity ROM and `OFFSET` (spec/10_state.md R21, R22; spec/20_memory.md R40 to
R48). No operation writes either (R48, R36). -/

namespace Sys2Proof.Machine

/-- `OFFSET`, the affine offset (R22, R6). -/
def offset : Byte := 0x22#8

/-- The table made from an open one: entries 0, 1, 2 are the fixed ones (R43, R44, R45), entry 42 is what the XOR relation of
R46 leaves it to be, and every other entry is open (R47). Log entry 1. -/
def romFrom (f : Index → Byte) (i : Index) : Byte :=
  if i = 0#6 then 0xF4#8
  else if i = 1#6 then 0xF1#8
  else if i = 2#6 then 0xEC#8
  else if i = 42#6 then
    0x39#8 ^^^ f 4#6 ^^^ f 7#6 ^^^ f 8#6 ^^^ f 9#6 ^^^ f 32#6 ^^^ f 33#6 ^^^ f 36#6
  else f i

/-- `ROM`, the parity matrix: entry `i` is the syndrome contribution of data bit `i` (R21, R40, R41). -/
def parityRom : Index → Byte := romFrom Config.openEntry

end Sys2Proof.Machine
end

