-- ==== Sys2Proof/Machine/Operands.lean ====
section
/-! DEFINITION. The operand forms: bit `IDX` of the data register, the ROM entry at index `IDX` (R101, R109), the word on port
`din` (R100) and the word of a text request (`parseHex16`, R64). -/

namespace Sys2Proof.Machine

/-- Bit `i` of a data word, bit 0 the least significant (R7). -/
def dataBit (d : DataWord) (i : Index) : Bool := d.getLsbD i.toNat

/-- The read of the ROM, the only load of the block: the index is the address, no base and no scale (R109, R52). -/
def romRead (i : Index) : Byte := parityRom i

/-- The word on port `din`, read by LOAD alone (R100, R169). -/
def Encoder.dinWord (u : Encoder) : DataWord := u.din

end Sys2Proof.Machine
end

