-- ==== Sys2Proof/Machine/Ops.lean ====
section
/-! DEFINITION. The named operations: the linear combination and the affine offset (spec/40_encode.md), the register updates of
the micro-steps (spec/41_datapath_steps.md), raising a text error (spec/60_exceptions.md R146), reset
(spec/70_reset_and_hazards.md R160), the host's port accesses (R127) and the choice of the instance (R151). -/

namespace Sys2Proof.Machine

/-- One iteration of the accumulation loop: XOR the entry in iff the data bit is 1 (R80, R101). -/
def accStep (d : DataWord) (acc : Byte) (i : Index) : Byte :=
  if dataBit d i then acc ^^^ romRead i else acc

/-- The accumulator after the iterations `0, …, k-1` (R80, R105). -/
def linUpTo (d : DataWord) : Nat → Byte
  | 0 => 0x00#8
  | k + 1 => accStep d (linUpTo d k) (BitVec.ofNat 6 k)

/-- `Lin(d)`, the linear part (R81). -/
def lin (d : DataWord) : Byte := linUpTo d 64

/-- `Encode(d) = Lin(d) ^ OFFSET` (R80): the offset once, after the whole accumulation (R83). -/
def eccOf (d : DataWord) : Byte := lin d ^^^ offset

/-- The registers after LOAD (R100). -/
def Encoder.loaded (u : Encoder) : Encoder :=
  { u.clearDone with dreg := u.dinWord, acc := 0x00#8, idx := 0#6, ph := .accum }

/-- The registers after ACCUM: every line reads the values from before the step (R101). -/
def Encoder.accumulated (u : Encoder) : Encoder :=
  { u with
    acc := accStep u.dreg u.acc u.idx
    ph := if u.idx = 63#6 then .offs else u.ph
    idx := u.idx + 1#6 }

/-- The registers after OFFS (R102). -/
def Encoder.offsetApplied (u : Encoder) : Encoder :=
  { u.setDone with acc := u.acc ^^^ offset, ph := .idle }

/-- The registers after a whole ENCODE of `d`, the atomic view (R107). -/
def Encoder.encoded (u : Encoder) (d : DataWord) : Encoder :=
  { u.setDone with dreg := d, acc := eccOf d, idx := 0#6, ph := .idle }

/-- The registers after reset: `ACC`, `DREG`, `IDX` become unspecified, here the draws of number `n`; the host's ports are not
registers of the block (R160, R35). -/
def Encoder.afterReset (u : Encoder) (n : Nat) : Encoder :=
  { u.clearDone with
    ph := .idle, dreg := Config.freeDreg n, idx := Config.freeIdx n, acc := Config.freeAcc n }

/-- Whether LOAD is enabled: `PH = IDLE` and `req = 1` (R100). -/
def Encoder.canLoad (u : Encoder) : Bool := u.ph == .idle && u.req

/-- The micro-step that the phase (and, for LOAD, `req`) selects, if any (R66, R103). It matches on the enumeration, as R66
allows; `Laws/Sequencer.lean` proves that it is what the sequencer word decodes to. -/
def Encoder.select (u : Encoder) : Option Instr :=
  match u.ph with
  | .idle => if u.req then some (.load u.idx) else none
  | .accum => some (.accum u.idx)
  | .offs => some (.offs u.idx)

/-- Replace the instance addressed now. -/
def State.setUnit (s : State) (u : Encoder) : State := { s with unit := u }

/-- The host gets something back. -/
def State.answer (s : State) (r : Reply) : State := { s with reply := some r }

/-- Raise a text error: the call ends and the error is handed to the caller; nothing else is saved or changed (R146). There is
no return operation, because no state was entered (R147). -/
def State.raise (s : State) (e : TextError) : State := s.answer (.error e)

/-- The reset transition of the instance addressed now (R160). -/
def State.resetUnit (s : State) : State :=
  { s with unit := s.unit.afterReset s.draws, draws := s.draws + 1 }

/-- The host sets the levels of the input ports (R28, R166). -/
def State.drivePorts (s : State) (req : Bool) (din : DataWord) : State :=
  s.setUnit { s.unit with req := req, din := din }

/-- The host reads the output ports: no side effect on the instance, and a fresh draw for `ecc` while `done = 0` (R109, R29,
U2). -/
def State.readPorts (s : State) : State :=
  { s.answer (.sample s.unit.ready s.unit.doneOut (s.unit.eccOut (Config.freeEcc s.draws))) with
    draws := if s.unit.done then s.draws else s.draws + 1 }

/-- All instances, in the order of their numbers (R151). -/
def State.all (s : State) : List Encoder := s.before ++ s.unit :: s.after

/-- Split a row of instances at number `k`. -/
def splitAtUnit : Nat → List Encoder → Option (List Encoder × Encoder × List Encoder)
  | _, [] => none
  | 0, u :: rest => some ([], u, rest)
  | k + 1, u :: rest =>
    match splitAtUnit k rest with
    | none => none
    | some (b, v, a) => some (u :: b, v, a)

/-- Address instance `k`, if there is one; no instance changes (R151). -/
def State.focusOn (s : State) (k : Nat) : Option State :=
  match splitAtUnit k s.all with
  | none => none
  | some (b, u, a) => some { s with before := b, unit := u, after := a }

/-- Address the next instance in cyclic order, so that with no host action pending every instance gets its clock event in turn
(the fairness of R108 and R173). Log entry 9. -/
def State.focusNext (s : State) : State :=
  match s.after with
  | v :: rest => { s with before := s.before ++ [s.unit], unit := v, after := rest }
  | [] =>
    match s.before with
    | [] => s
    | v :: rest => { s with before := [], unit := v, after := rest ++ [s.unit] }

/-- Take the oldest host action off the list. -/
def State.setHost (s : State) (cs : List HostCmd) : State := { s with host := cs }

end Sys2Proof.Machine
end

