-- ==== Sys2Proof/Machine/MicroSteps.lean ====
section
/-! DEFINITION. The micro-steps LOAD, ACCUM, OFFS (format SEQ8; spec/41_datapath_steps.md R100, R101, R102). A micro-step whose
enabling condition does not hold is not taken and changes nothing (R103, R166; log entry 4). -/

namespace Sys2Proof.Machine

/-- LOAD (R100): enabled iff `PH = IDLE` and `req = 1`; the index field is not examined. -/
def execLoad (_x : Index) (s : State) : Host.Outcome State Fault Refusal :=
  if s.unit.canLoad then .next (s.setUnit s.unit.loaded) else .next s

/-- ACCUM at index `i` (R101): selected by `PH = ACCUM` and `IDX = i` (R66). -/
def execAccum (i : Index) (s : State) : Host.Outcome State Fault Refusal :=
  if s.unit.ph = .accum ∧ s.unit.idx = i then .next (s.setUnit s.unit.accumulated) else .next s

/-- OFFS (R102): enabled iff `PH = OFFS`; the index field is not examined. -/
def execOffs (_x : Index) (s : State) : Host.Outcome State Fault Refusal :=
  if s.unit.ph = .offs then .next (s.setUnit s.unit.offsetApplied) else .next s

end Sys2Proof.Machine
end

