-- ==== Sys2Proof/Machine/Request.lean ====
section
/-! DEFINITION. ENCODE (format REQ64; spec/40_encode.md R80, spec/41_datapath_steps.md R107). -/

namespace Sys2Proof.Machine

/-- ENCODE of `d`, as the one atomic step that R107 admits: `DREG`, `ACC`, `IDX`, `DONE`, `PH` as after the 66 micro-steps. While
the instance is busy the request is not taken and nothing happens to it (R166); `step` keeps such a request pending. -/
def execEncode (d : DataWord) (s : State) : Host.Outcome State Fault Refusal :=
  if s.unit.ph = .idle then .next (s.setUnit (s.unit.encoded d)) else .next s

end Sys2Proof.Machine
end

