-- ==== Sys2Proof/Machine/TextCall.lean ====
section
/-! DEFINITION. ENCODE_HEX (formats HEX16 and HEX2; spec/42_host_text_interface.md R125). -/

namespace Sys2Proof.Machine

/-- ENCODE_HEX: parse, encode, print (R125). An invalid string raises its error before any request reaches the datapath, in every
phase (R146). A valid one is a request: while the instance is busy it is not taken (R166), and `step` keeps it pending. -/
def execEncodeHex (t : Text) (s : State) : Host.Outcome State Fault Refusal :=
  match parseHex16 t with
  | .error e => .next (s.raise e)
  | .ok d =>
    if s.unit.ph = .idle then
      .next ((s.setUnit (s.unit.encoded d)).answer (.text (formatHex2 (eccOf d))))
    else .next s

end Sys2Proof.Machine
end

