-- ==== Sys2Proof/Machine/Dispatch.lean ====
section
/-! DEFINITION. The meaning of every operation, one arm for each row of spec/opcode_table.json. -/

namespace Sys2Proof.Machine

/-- The effect of one operation on the instance addressed now. -/
def exec (i : Instr) (s : State) : Host.Outcome State Fault Refusal :=
  match i with
  | .encode d => Sys2Proof.Machine.execEncode d s
  | .encodeHex t => Sys2Proof.Machine.execEncodeHex t s
  | .load x => Sys2Proof.Machine.execLoad x s
  | .accum k => Sys2Proof.Machine.execAccum k s
  | .offs x => Sys2Proof.Machine.execOffs x s

end Sys2Proof.Machine
end

