-- ==== Sys2Proof/Machine/Cycle.lean ====
section
/-! DEFINITION. What one step consists of: a clock event, a host action, and the placing of an operation so that the next step
runs it (R103, R107, R127, R166). -/

namespace Sys2Proof.Machine

/-- A clock event of the instance addressed now: it takes the one micro-step that is enabled, or, with `PH = IDLE` and `req = 0`,
none, and its state does not change (R103). -/
def clockUnit (s : State) : Host.Outcome State Fault Refusal :=
  match s.unit.select with
  | none => .next s
  | some i => exec i s

/-- Whether the instance must be idle before the operation can be taken: an ENCODE, or a text request that is valid (R125,
R166). -/
def needsIdle : Instr → Bool
  | .encode _ => true
  | .encodeHex t =>
    match parseHex16 t with
    | .ok _ => true
    | .error _ => false
  | .load _ => false
  | .accum _ => false
  | .offs _ => false

/-- Run the operation that a raw form decodes to and take its host action off the list. A request to a busy instance is held:
the host keeps presenting it, and the running operation takes its own micro-step (R127, R166). -/
def runRaw (r : Raw) (rest : List HostCmd) (s : State) : Host.Outcome State Fault Refusal :=
  match decode r with
  | .error e => .refused (.undecodable e)
  | .ok i => if needsIdle i && !s.unit.ready then clockUnit s else exec i (s.setHost rest)

/-- One host action on the instance addressed now; `rest` are the actions after it (R127). -/
def serve (a : HostAction) (rest : List HostCmd) (s : State) : Host.Outcome State Fault Refusal :=
  match a with
  | .request d => runRaw (.req64 d) rest s
  | .call t => runRaw (.hex16 t) rest s
  | .drive req din => .next ((s.setHost rest).drivePorts req din)
  | .clock => clockUnit (s.setHost rest)
  | .reset => .next (s.setHost rest).resetUnit
  | .read => .next (s.setHost rest).readPorts

/-- The phase that a sequencer word's bits 7:6 stand for (R26). -/
def phaseOfCode (c : BitVec 2) : Option Phase :=
  if c = 0b00#2 then some .idle
  else if c = 0b01#2 then some .accum
  else if c = 0b10#2 then some .offs
  else none

/-- Place a host action, addressed to the instance that is addressed now, before all others. -/
def State.present (s : State) (a : HostAction) : State :=
  s.setHost (⟨s.before.length, a⟩ :: s.host)

/-- Bring the instance to the phase and index of a sequencer word, with a request presented where the word is a LOAD. -/
def Encoder.atSeqWord (u : Encoder) (p : Phase) (x : Index) : Encoder :=
  { u with ph := p, idx := x, req := if p = .idle then true else u.req }

/-- Bring the instance to `PH = IDLE` where the operation can be taken only then. -/
def State.readyFor (s : State) (i : Instr) : State :=
  if needsIdle i then s.setUnit { s.unit with ph := .idle } else s

/-- Place a raw form where the next step takes it from: a request or a string becomes the oldest host action, to an idle instance
where it needs one; a sequencer word becomes the instance's own, with a clock event pending. A word `11xxxxxx` has no place.
Log entry 8. -/
def State.placeRaw (s : State) (r : Raw) : State :=
  match r with
  | .req64 w => (s.readyFor (.encode w)).present (.request w)
  | .hex16 cs => (s.readyFor (.encodeHex cs)).present (.call cs)
  | .seq8 q =>
    match phaseOfCode (q.extractLsb' 6 2) with
    | none => s
    | some p => (s.setUnit (s.unit.atSeqWord p (q.extractLsb' 0 6))).present .clock

end Sys2Proof.Machine
end

