-- ==== Sys2Proof/Machine/Step.lean ====
section
/-! DEFINITION. One step of the machine: the oldest host action, or, when none is pending, the clock event of the next instance in
turn (R14, R103, R127, R151, R175). -/

namespace Sys2Proof.Machine

/-- One step. The list of host actions says which agent moves and which instance it concerns; with no action pending, the
instances take their clock events in turn. -/
def step (s : State) : Host.Outcome State Fault Refusal :=
  match s.host with
  | [] => clockUnit s.focusNext
  | c :: rest =>
    match s.focusOn c.target with
    | none => .fault .noSuchInstance
    | some s' => serve c.action rest s'

/-- The state in which the next step runs exactly the operation whose table bits are `w` (log entry 8). -/
def State.withFetchWord (s : State) (nbits w : Nat) : State :=
  match rawOfTable nbits w with
  | none => s
  | some r => s.placeRaw r

end Sys2Proof.Machine
end

