-- ==== Sys2Proof/Safety.lean ====
section
/-! DEFINITION. The words that claims are stated in: an admissible ROM table (R47), the invariant of an instance (R105, R106), the
transitions an instance has (R103), the states a host can bring the machine to, and the end of a run (R175). -/

namespace Sys2Proof.Machine

/-- A table that satisfies what the document fixes of the parity ROM (R43, R44, R45, R46). -/
structure RomAdmissible (r : Index → Byte) : Prop where
  entry0 : r 0#6 = 0xF4#8
  entry1 : r 1#6 = 0xF1#8
  entry2 : r 2#6 = 0xEC#8
  relation : r 4#6 ^^^ r 7#6 ^^^ r 8#6 ^^^ r 9#6 ^^^ r 32#6 ^^^ r 33#6 ^^^ r 36#6 ^^^ r 42#6 = 0x39#8

/-- What holds of an instance in every reachable state: the loop invariant (R105) while it is busy, and the result (R106) while
`DONE = 1`. -/
structure Encoder.Inv (u : Encoder) : Prop where
  loop : u.ph = .accum → u.acc = linUpTo u.dreg u.idx.toNat ∧ u.done = false
  summed : u.ph = .offs → u.idx = 0#6 ∧ u.done = false ∧ u.acc = lin u.dreg
  result : u.done = true → u.ph = .idle ∧ u.idx = 0#6 ∧ u.acc = eccOf u.dreg

/-- The invariant of the machine: every instance has its own. -/
def State.Inv (s : State) : Prop := ∀ u ∈ s.all, u.Inv

/-- What an instance does by itself: nothing, or one of its micro-steps where it is enabled (R103). -/
inductive Encoder.Moves (u : Encoder) : Encoder → Prop where
  | stays : u.Moves u
  | loads (h : u.ph = .idle ∧ u.req = true) : u.Moves u.loaded
  | accumulates (h : u.ph = .accum) : u.Moves u.accumulated
  | offsets (h : u.ph = .offs) : u.Moves u.offsetApplied

/-- Whether a host action presents a request for the ENCODE of `d` (R127, R107): the request itself, or a call with a valid string
of that word (R125). -/
def HostAction.asks (a : HostAction) (d : DataWord) : Prop := a = .request d ∨ ∃ t, a = .call t ∧ parseHex16 t = .ok d

/-- Whether the oldest host action presents a request for the ENCODE of `d` to instance `k`. -/
def State.asks (s : State) (k : Nat) (d : DataWord) : Prop := ∃ a rest, s.host = ⟨k, a⟩ :: rest ∧ a.asks d

/-- The states that any number of instances and any sequence of host actions lead to (R127, R151, R175). -/
inductive Reachable : State → Prop where
  | reset (more : Nat) (cmds : List HostCmd) : Reachable { State.resetWith more with host := cmds }
  | step (s t : State) (h : Reachable s) (hs : Sys2Proof.Machine.step s = .next t) : Reachable t

/-- The end of a run: the host has no further action and every instance is idle (R175). Whether a level `req = 1` still presented
at an idle instance counts as a further action R175 does not say. DESIGN CHOICE (log entry 18): it does not, the action was the
`drive` that set the level, so the run can be over in a state whose next step takes a LOAD. -/
def State.runOver (s : State) : Prop := s.host = [] ∧ ∀ u ∈ s.all, u.ph = .idle

/-- `k` steps of the machine. -/
def run (k : Nat) (s : State) : Host.Outcome State Fault Refusal := Host.Core.run Sys2Proof.core k s

/-- The 22 characters of R120, written out. -/
def alphabet22 : Text :=
  ['0', '1', '2', '3', '4', '5', '6', '7', '8', '9', 'a', 'b', 'c', 'd', 'e', 'f', 'A', 'B', 'C', 'D', 'E', 'F']

/-- The exclusive OR of a list of 8-bit values; that of none is `0x00` (R8). -/
def xorAll (l : List Byte) : Byte := l.foldl (· ^^^ ·) 0x00#8

/-- `n` clock events of instance `k`. -/
def clocks (k n : Nat) : List HostCmd := List.replicate n ⟨k, .clock⟩

/-- How many micro-steps a busy instance has before it is idle: the measure of R108 as repaired by log entry 19 (DEDUCED), `65 - IDX`
in phase ACCUM where R108 writes `64 - IDX`, which would not fall from ACCUM at index 63 to OFFS. -/
def Encoder.stepsLeft (u : Encoder) : Nat :=
  match u.ph with
  | .idle => 0
  | .accum => 65 - u.idx.toNat
  | .offs => 1

/-- An instance without the levels that the host drives on its input ports: the complete state of R20. -/
def Encoder.regs (u : Encoder) : Phase × Bool × DataWord × Index × Byte := (u.ph, u.done, u.dreg, u.idx, u.acc)

/-- The control part of an instance: what the schedule of R174 is about. -/
def Encoder.control (u : Encoder) : Phase × Bool × Index := (u.ph, u.done, u.idx)

end Sys2Proof.Machine
end

