-- ==== Sys2Proof/Certificates/Slice0/Obligations.lean ====
section
/-! DEFINITION. The statements for the provers. Each docstring names the rules of spec/ it rests on; OBLIGATIONS.json says which
are stated word for word. `reset` in a name is the spec's reset. A free value (Config, `draws`) is never given a value here. -/

open Sys2Proof Sys2Proof.Machine

/-! ### The parity ROM -/

/-- R43, R44, R45, R46: the ROM holds the three fixed entries and meets the XOR relation. -/
def Obligations.RomHoldsTheEntriesTheDocumentFixes : Prop :=
  parityRom 0#6 = 0xF4#8 ∧ parityRom 1#6 = 0xF1#8 ∧ parityRom 2#6 = 0xEC#8 ∧
  parityRom 4#6 ^^^ parityRom 7#6 ^^^ parityRom 8#6 ^^^ parityRom 9#6 ^^^ parityRom 32#6 ^^^ parityRom 33#6 ^^^
    parityRom 36#6 ^^^ parityRom 42#6 = 0x39#8

/-- R47: the tables the model can have are exactly the tables that satisfy R43 to R46, so nothing else is assumed of an entry. -/
def Obligations.RomRangesOverExactlyTheAdmissibleTables : Prop :=
  ∀ r : Index → Byte, RomAdmissible r ↔ ∃ f : Index → Byte, r = romFrom f

/-! ### The function that ENCODE computes -/

/-- R81: `Lin(d)` is the exclusive OR of the entries that the 1-bits of `d` select, `0x00` for the zero word, the row vector `d`
times the ROM as a matrix over GF(2), and linear. -/
def Obligations.LinIsTheLinearCombinationOfTheSelectedEntries : Prop :=
  (∀ d : DataWord,
    lin d = xorAll (((List.range 64).filter fun i => d.getLsbD i).map fun i => parityRom (BitVec.ofNat 6 i))) ∧
  lin 0#64 = 0x00#8 ∧
  (∀ (d : DataWord) (j : Nat), j < 8 →
    (lin d).getLsbD j =
      ((List.range 64).map fun i => d.getLsbD i && (parityRom (BitVec.ofNat 6 i)).getLsbD j).foldl (· ^^ ·) false) ∧
  ∀ a b : DataWord, lin (a ^^^ b) = lin a ^^^ lin b

/-- R82: each ECC bit is the parity of the data bits that a column of the matrix selects, inverted for bits 1 and 5. -/
def Obligations.EachEccBitIsAParityTree : Prop :=
  ∀ (d : DataWord) (j : Nat), j < 8 →
    (eccOf d).getLsbD j =
      ((0x22#8).getLsbD j ^^
        ((List.range 64).map fun i => d.getLsbD i && (parityRom (BitVec.ofNat 6 i)).getLsbD j).foldl (· ^^ ·) false) ∧
    ((0x22#8).getLsbD j = true ↔ j = 1 ∨ j = 5)

/-- R86: affine-linearity of two words, and of any number of words: an odd number adds up to the ECC of the sum, an even number
differs from it by the offset. -/
def Obligations.EncodeIsAffine : Prop :=
  (∀ a b : DataWord, eccOf (a ^^^ b) = eccOf a ^^^ eccOf b ^^^ 0x22#8) ∧
  ∀ ws : List DataWord,
    xorAll (ws.map eccOf) =
      if ws.length % 2 = 1 then eccOf (ws.foldl (· ^^^ ·) 0#64) else eccOf (ws.foldl (· ^^^ ·) 0#64) ^^^ 0x22#8

/-- R87: the zero word gives the offset `0x22`, which the text operation prints as `22`. -/
def Obligations.ZeroWordEncodesToTheOffset : Prop :=
  eccOf 0#64 = offset ∧ offset = 0x22#8 ∧ formatHex2 (eccOf 0#64) = ['2', '2'] ∧
  ∀ s : State, s.unit.ph = .idle →
    ∃ t, exec (.encodeHex (List.replicate 16 '0')) s = .next t ∧ t.reply = some (.text ['2', '2'])

/-- R88: the word with the one bit `i` gives `ROM[i] ^ OFFSET`, so a host can read any entry, and flipping bit `i` of any word
changes the result by exactly `ROM[i]`; so the result does not depend on bit `i` just when `ROM[i]` is `0x00`. -/
def Obligations.FlippingADataBitAddsItsRomEntry : Prop :=
  ∀ i : Index,
    eccOf (1#64 <<< i.toNat) = parityRom i ^^^ offset ∧
    parityRom i = eccOf (1#64 <<< i.toNat) ^^^ 0x22#8 ∧
    ∀ d : DataWord, eccOf (d ^^^ (1#64 <<< i.toNat)) = eccOf d ^^^ parityRom i ∧
      (eccOf (d ^^^ (1#64 <<< i.toNat)) = eccOf d ↔ parityRom i = 0x00#8)

/-- R89, R83: in whatever order and grouping the 64 indices are visited, and whether the offset is applied at the end or is what
the accumulator starts from, the value is the same. -/
def Obligations.AccumulationOrderDoesNotMatter : Prop :=
  ∀ d : DataWord,
    (∀ l : List Index, l.Perm ((List.range 64).map fun i => BitVec.ofNat 6 i) →
      l.foldl (accStep d) 0x00#8 ^^^ offset = eccOf d ∧ l.foldl (accStep d) offset = eccOf d) ∧
    ∀ groups : List (List Index), groups.flatten.Perm ((List.range 64).map fun i => BitVec.ofNat 6 i) →
      xorAll (groups.map fun l => l.foldl (accStep d) 0x00#8) = lin d

/-! ### ENCODE -/

/-- R80, R107: an idle instance completes the ENCODE of any word, with the value of the document's loop in `ACC` and the other
registers as R107 gives them. That it is one step that leaves `req` and `din` as they are is log entry 10 (DEDUCED). -/
def Obligations.EncodeCompletesWithTheValueOfTheLoop : Prop :=
  ∀ (d : DataWord) (s : State), s.unit.ph = .idle →
    exec (.encode d) s = .next { s with unit := { s.unit with
      ph := .idle, done := true, dreg := d, idx := 0#6,
      acc := ((List.range 64).foldl
        (fun acc i => if d.getLsbD i then acc ^^^ parityRom (BitVec.ofNat 6 i) else acc) 0x00#8) ^^^ 0x22#8 } } ∧
    exec (.encode d) s = .next { s with unit := { s.unit with
      ph := .idle, done := true, dreg := d, idx := 0#6, acc := lin d ^^^ 0x22#8 } } ∧
    lin 0x7#64 ^^^ 0x22#8 = 0xCB#8

/-- R166, R127: a request to a busy instance is held. That the operation alone answers the same state is log entry 4 (DEDUCED);
that the step at which the host still presents the request is a clock event of that instance, after which the request is still
pending, is the model's choice, log entry 9. -/
def Obligations.RequestToABusyEncoderIsHeld : Prop :=
  ∀ (d : DataWord) (t : Text) (s : State) (rest : List HostCmd), s.unit.ph ≠ .idle →
    exec (.encode d) s = .next s ∧
    (parseHex16 t = .ok d → exec (.encodeHex t) s = .next s) ∧
    ∀ a, a = .request d ∨ (a = .call t ∧ parseHex16 t = .ok d) → s.host = ⟨s.before.length, a⟩ :: rest →
      step s = clockUnit s ∧
      ∃ u, step s = .next u ∧ u.host = s.host ∧ u.unit.dreg = s.unit.dreg ∧ u.reply = s.reply ∧
        u.before = s.before ∧ u.after = s.after

/-- R85, R35, R100: what an idle instance holds in `ACC`, `DREG`, `IDX`, `DONE` has no influence on the next operation. -/
def Obligations.HiddenRegistersOfAnIdleEncoderHaveNoInfluence : Prop :=
  ∀ (s : State) (acc : Byte) (dreg : DataWord) (idx : Index) (done : Bool) (w : DataWord) (t : Text) (x : Index),
    s.unit.ph = .idle →
    let s' := { s with unit := { s.unit with acc := acc, dreg := dreg, idx := idx, done := done } }
    exec (.encode w) s' = exec (.encode w) s ∧
    (parseHex16 t = .ok w → exec (.encodeHex t) s' = exec (.encodeHex t) s) ∧
    (s.unit.req = true → exec (.load x) s' = exec (.load x) s)

/-! ### The micro-steps -/

/-- R100, R169: LOAD, where it is enabled, and `din` has no effect on the steps after it. -/
def Obligations.LoadTakesTheWordOnDin : Prop :=
  ∀ (s : State) (x : Index),
    (s.unit.ph = .idle → s.unit.req = true →
      s.unit.select = some (.load s.unit.idx) ∧
      exec (.load x) s = .next { s with unit := { s.unit with
        dreg := s.unit.din, acc := 0x00#8, idx := 0#6, done := false, ph := .accum } }) ∧
    ∀ (req : Bool) (din : DataWord) (i : Index),
      let s' := { s with unit := { s.unit with req := req, din := din } }
      (∃ t, exec (.accum i) s = .next t ∧
        exec (.accum i) s' = .next { t with unit := { t.unit with req := req, din := din } }) ∧
      ∃ t, exec (.offs x) s = .next t ∧
        exec (.offs x) s' = .next { t with unit := { t.unit with req := req, din := din } }

/-- R101: ACCUM XORs the entry at `IDX` in iff bit `IDX` of the data register is 1, counts `IDX` up modulo 64, and ends the loop at
63; all three from the values before the step. -/
def Obligations.AccumAddsTheEntryOfASetBit : Prop :=
  ∀ s : State, s.unit.ph = .accum →
    s.unit.select = some (.accum s.unit.idx) ∧
    exec (.accum s.unit.idx) s = .next { s with unit := { s.unit with
      acc := if s.unit.dreg.getLsbD s.unit.idx.toNat then s.unit.acc ^^^ parityRom s.unit.idx else s.unit.acc
      ph := if s.unit.idx.toNat = 63 then .offs else .accum
      idx := BitVec.ofNat 6 ((s.unit.idx.toNat + 1) % 64) } }

/-- R102: OFFS XORs the offset in, once, sets `DONE` and ends the operation; `IDX` is 0 before and after it in every state that
the invariant of R105 admits. -/
def Obligations.OffsAppliesTheOffsetAndSetsDone : Prop :=
  ∀ (s : State) (x : Index), s.unit.ph = .offs →
    s.unit.select = some (.offs s.unit.idx) ∧
    exec (.offs x) s = .next { s with unit := { s.unit with
      acc := s.unit.acc ^^^ 0x22#8, done := true, ph := .idle } } ∧
    (s.unit.Inv → s.unit.idx = 0#6)

/-- The model's choice (log entry 4): a micro-step that is not enabled (R103) is not taken and changes nothing. -/
def Obligations.MicroStepNotSelectedChangesNothing : Prop :=
  ∀ (s : State) (x : Index),
    (¬(s.unit.ph = .idle ∧ s.unit.req = true) → exec (.load x) s = .next s) ∧
    (¬(s.unit.ph = .accum ∧ s.unit.idx = x) → exec (.accum x) s = .next s) ∧
    (s.unit.ph ≠ .offs → exec (.offs x) s = .next s)

/-- R66: the micro-step is selected by the sequencer word `PH[1:0] ++ IDX[5:0]`, LOAD also by `req`; phase `0b11` does not occur, and
the word is `10000000` in an OFFS state that the invariant admits. -/
def Obligations.SequencerWordSelectsTheMicroStep : Prop :=
  ∀ u : Encoder,
    (u.seqWord.extractLsb' 6 2 = 0b00#2 → u.req = true →
      u.select = some (.load (u.seqWord.extractLsb' 0 6))) ∧
    (u.seqWord.extractLsb' 6 2 = 0b00#2 → u.req = false → u.select = none) ∧
    (u.seqWord.extractLsb' 6 2 = 0b01#2 → u.select = some (.accum (u.seqWord.extractLsb' 0 6))) ∧
    (u.seqWord.extractLsb' 6 2 = 0b10#2 → u.select = some (.offs (u.seqWord.extractLsb' 0 6))) ∧
    u.seqWord.extractLsb' 6 2 ≠ 0b11#2 ∧
    (∀ i, u.select = some i → decode (.seq8 u.seqWord) = .ok i) ∧
    (u.Inv → u.ph = .offs → u.seqWord = 0b10000000#8)

/-! ### The text operation -/

/-- R122: the length first, then the alphabet, then the positional value, whose bits 63-4k down to 60-4k are character `k`. -/
def Obligations.ParseHex16ValidatesThenAddsUpTheDigits : Prop :=
  ∀ t : Text,
    (t.length ≠ 16 → parseHex16 t = .error .invalidLength) ∧
    (t.length = 16 → (∃ c ∈ t, c ∉ alphabet22) → parseHex16 t = .error .invalidFormat) ∧
    (t.length = 16 → (∀ c ∈ t, c ∈ alphabet22) →
      ∃ d : DataWord, parseHex16 t = .ok d ∧
        d.toNat = ((List.range 16).map fun k => digitVal (t.getD k '0') * 16 ^ (15 - k)).sum ∧
        ∀ k, k < 16 → hexVal (t.getD k '0') = some (d.extractLsb' (60 - 4 * k) 4).toNat)

/-- R67, R62: every 64-bit word has a text form, in lowercase and in uppercase digits, and parsing it gives the word back. -/
def Obligations.EveryWordHasATextForm : Prop :=
  ∀ d : DataWord, parseHex16 (hexText d) = .ok d ∧ parseHex16 ((hexText d).map Char.toUpper) = .ok d

/-- R62, R125: two strings that differ only in letter case give the same result, in every state. -/
def Obligations.LetterCaseDoesNotMatter : Prop :=
  ∀ (t t' : Text), t.map Char.toLower = t'.map Char.toLower →
    parseHex16 t = parseHex16 t' ∧ ∀ s : State, exec (.encodeHex t) s = exec (.encodeHex t') s

/-- R124: always two lowercase characters, the high digit first, each of the value of its four bits; so no two values print
alike. -/
def Obligations.FormatHex2PrintsTwoLowercaseDigits : Prop :=
  (∀ e : Byte, ∃ a b : Char, formatHex2 e = [a, b] ∧
    a ∈ alphabet22.take 16 ∧ b ∈ alphabet22.take 16 ∧
    hexVal a = some (e.toNat / 16) ∧ hexVal b = some (e.toNat % 16)) ∧
  ∀ e e' : Byte, formatHex2 e = formatHex2 e' → e = e'

/-- R121, R124: the table of `HexVal`, character by character, with no value outside the alphabet, and the table of `Digit`, from
which `FormatHex2` takes its two characters. -/
def Obligations.HexValAndDigitHaveTheValuesOfTheirTables : Prop :=
  ['0', '1', '2', '3', '4', '5', '6', '7', '8', '9'].map hexVal =
    [some 0, some 1, some 2, some 3, some 4, some 5, some 6, some 7, some 8, some 9] ∧
  ['a', 'b', 'c', 'd', 'e', 'f'].map hexVal = [some 10, some 11, some 12, some 13, some 14, some 15] ∧
  ['A', 'B', 'C', 'D', 'E', 'F'].map hexVal = [some 10, some 11, some 12, some 13, some 14, some 15] ∧
  (∀ c : Char, c ∉ alphabet22 → hexVal c = none) ∧
  ((List.range 16).map fun v => hexDigit (BitVec.ofNat 4 v)) =
    ['0', '1', '2', '3', '4', '5', '6', '7', '8', '9', 'a', 'b', 'c', 'd', 'e', 'f'] ∧
  (∀ e : Byte, formatHex2 e = [hexDigit (e.extractLsb' 4 4), hexDigit (e.extractLsb' 0 4)]) ∧
  [0x00#8, 0x03#8, 0xFF#8, 0xCB#8, 0x1E#8].map formatHex2 = [['0', '0'], ['0', '3'], ['f', 'f'], ['c', 'b'], ['1', 'e']]

/-- R140, R141, R142: the numbers of the two error kinds, 0 for no error, are distinct; a string has the code of its cause, at a
busy instance too (log entry 15); and an error is handed over only by ENCODE_HEX of a string that has that defect. -/
def Obligations.ErrorCodesAreThoseOfTheList : Prop :=
  (errorCode none = 0 ∧ errorCode (some .invalidLength) = 1 ∧ errorCode (some .invalidFormat) = 2) ∧
  (∀ (t : Text) (s : State), t.length ≠ 16 →
    ∃ e u, exec (.encodeHex t) s = .next u ∧ u.reply = some (.error e) ∧ errorCode (some e) = 1) ∧
  (∀ (t : Text) (s : State), t.length = 16 → (∃ c ∈ t, c ∉ alphabet22) →
    ∃ e u, exec (.encodeHex t) s = .next u ∧ u.reply = some (.error e) ∧ errorCode (some e) = 2) ∧
  ∀ (i : Instr) (s u : State) (e : TextError), exec i s = .next u → u.reply = some (.error e) →
    s.reply = some (.error e) ∨ ∃ t, i = .encodeHex t ∧ parseHex16 t = .error e

/-- R125, R107: an idle instance completes ENCODE_HEX of every valid string: the registers as R107 leaves them, and the code
printed. That it is one step that leaves `req` and `din` as they are is log entry 10 (DEDUCED). -/
def Obligations.EncodeHexReturnsThePrintedCode : Prop :=
  ∀ (t : Text) (d : DataWord) (s : State), parseHex16 t = .ok d → s.unit.ph = .idle →
    exec (.encodeHex t) s = .next { s with
      unit := { s.unit with ph := .idle, done := true, dreg := d, idx := 0#6, acc := lin d ^^^ 0x22#8 }
      reply := some (.text (formatHex2 (lin d ^^^ 0x22#8))) }

/-- R141, R142, R146: which string raises which error, and that an error changes nothing but what the caller is handed. That it is
raised at once at a busy instance too is log entry 15 (DEDUCED). -/
def Obligations.InvalidTextRaisesItsErrorAndChangesNothingElse : Prop :=
  ∀ t : Text,
    (parseHex16 t = .error .invalidLength ↔ t.length ≠ 16) ∧
    (parseHex16 t = .error .invalidFormat ↔ t.length = 16 ∧ ∃ c ∈ t, c ∉ alphabet22) ∧
    ∀ (e : TextError) (s : State), parseHex16 t = .error e →
      exec (.encodeHex t) s = .next { s with reply := some (.error e) }

/-- R147: after an error any operation goes exactly as if the failed call had never been made, but for what the host was handed
before. -/
def Obligations.ErrorLeavesNoTraceForTheNextOperation : Prop :=
  ∀ (t : Text) (e : TextError) (s : State) (i : Instr), parseHex16 t = .error e →
    ∃ s1 u v, exec (.encodeHex t) s = .next s1 ∧ exec i s1 = .next u ∧ exec i s = .next v ∧
      { u with reply := none } = { v with reply := none }

/-- R68: a text request is a valid form exactly when it parses. -/
def Obligations.TextIsWellFormedIffItParses : Prop :=
  ∀ t : Text, (Instr.encodeHex t).wellFormed = true ↔ ∃ d, parseHex16 t = .ok d

/-- R125, R166: a valid text call to a busy instance is answered with its own code as soon as the running operation has ended. The
exact number of steps is the model's: while a request is held, each step is a clock event of that instance (log entry 9). -/
def Obligations.HeldTextCallIsAnsweredWithItsCode : Prop :=
  ∀ (s : State) (t : Text) (d : DataWord) (rest : List HostCmd), parseHex16 t = .ok d →
    s.host = ⟨s.before.length, .call t⟩ :: rest →
    ∃ u, run (s.unit.stepsLeft + 1) s = .next u ∧ u.unit = s.unit.encoded d ∧
      u.reply = some (.text (formatHex2 (eccOf d))) ∧ u.host = rest ∧ u.before = s.before ∧ u.after = s.after

/-! ### Encoding -/

/-- R60, R62, R66, R67, R68: decoding and encoding are inverse to each other on every operation and every raw form, and the only raw
forms rejected are the sequencer words `11xxxxxx`. -/
def Obligations.DecodeAndEncodeAgree : Prop :=
  (∀ i : Instr, decode (encode i) = .ok i) ∧
  (∀ (r : Raw) (i : Instr), decode r = .ok i → encode i = r) ∧
  ∀ r : Raw, decode r = .error .unusedPhase ↔ ∃ x : Index, r = .seq8 (0b11#2 ++ x)

/-- R65, R66, opcode_table.json: words written out from the table decode to the operations they stand for. -/
def Obligations.WordsOfTheTableDecode : Prop :=
  decodeTableWord 64 0x0000041300000393 = some (.encode 0x0000041300000393#64) ∧
  decodeTableWord 16 0b1000000000000001 = some (.encodeHex
    ['1', '0', '0', '0', '0', '0', '0', '0', '0', '0', '0', '0', '0', '0', '0', '1']) ∧
  decodeTableWord 8 0b00000101 = some (.load 5#6) ∧
  decodeTableWord 8 0b01111111 = some (.accum 63#6) ∧
  decodeTableWord 8 0b10000000 = some (.offs 0#6) ∧
  decodeTableWord 8 0b11000000 = none

/-! ### The step -/

/-- How the next operation is found (R65, R66, R103, R107, R127): a request or a string that the host presents, to an instance that
can take it; otherwise the sequencer word, at a clock event of the host's or, with no action pending, of the next instance (log
entry 9). An idle instance with `req = 0` has no step: its clock event leaves every instance as it is. -/
def Obligations.StepRunsTheDecodedOperation : Prop :=
  ∀ (s s' : State) (k : Nat) (rest : List HostCmd), s.focusOn k = some s' →
    s'.all = s.all ∧ s'.before.length = k ∧
    (∀ d i, s.host = ⟨k, .request d⟩ :: rest → decode (.req64 d) = .ok i → s'.unit.ph = .idle →
      step s = exec i { s' with host := rest }) ∧
    (∀ t i, s.host = ⟨k, .call t⟩ :: rest → decode (.hex16 t) = .ok i →
      (i.wellFormed = true → s'.unit.ph = .idle) → step s = exec i { s' with host := rest }) ∧
    (∀ i, s.host = ⟨k, .clock⟩ :: rest → decode (.seq8 s'.unit.seqWord) = .ok i →
      (s'.unit.ph = .idle → s'.unit.req = true) → step s = exec i { s' with host := rest }) ∧
    (s.host = ⟨k, .clock⟩ :: rest → s'.unit.ph = .idle → s'.unit.req = false → step s = .next { s' with host := rest }) ∧
    (∀ i, s.host = [] → decode (.seq8 s.focusNext.unit.seqWord) = .ok i →
      (s.focusNext.unit.ph = .idle → s.focusNext.unit.req = true) → step s = exec i s.focusNext) ∧
    (s.host = [] → s.focusNext.unit.ph = .idle → s.focusNext.unit.req = false →
      step s = .next s.focusNext ∧ s.focusNext.all = s.all)

/-- The operation placed by its table word is the one the next step runs (log entry 8). -/
def Obligations.PlacedOperationIsTheNextOneRun : Prop :=
  ∀ (s : State) (nbits w : Nat) (i : Instr), decodeTableWord nbits w = some i →
    step (s.withFetchWord nbits w) = exec i { s.withFetchWord nbits w with host := s.host }

/-- R143, R84: no operation faults or is refused. That no operation but ENCODE_HEX hands the host anything is R127 (nothing at once)
and, for the model's field `reply`, log entry 11 (DESIGN CHOICE). -/
def Obligations.EveryOperationAnswersANextState : Prop :=
  ∀ (i : Instr) (s : State), ∃ t, exec i s = .next t ∧
    ((∀ u : Text, i ≠ .encodeHex u) → t.reply = s.reply)

/-- The model's choice (log entry 6): a step stops only on a host action to an instance that does not exist, and then always. -/
def Obligations.StepStopsOnlyOnAMissingEncoder : Prop :=
  ∀ s : State,
    (step s = .fault .noSuchInstance ↔ ∃ c rest, s.host = c :: rest ∧ s.all.length ≤ c.target) ∧
    (step s ≠ .fault .noSuchInstance → ∃ t, step s = .next t)

/-- R143, R175: a host that addresses only instances that exist never brings the machine to a stop. -/
def Obligations.MachineNeverStopsForAnAdmissibleHost : Prop :=
  ∀ (n : Nat) (s : State), (∀ c ∈ s.host, c.target < s.all.length) → ∃ t, run n s = .next t

/-- R103, R107, R110, R151: a step concerns one instance, which does nothing or its enabled micro-step, or does what the oldest host
action asks of it: its ports are set (R28), it takes the ENCODE that is asked for while it is idle (R107), or it is reset (R160),
which leaves `req` and `din` to the host (log entry 5). Every other instance is untouched, and none appears or disappears. -/
def Obligations.StepMovesOneEncoderByAnAllowedTransition : Prop :=
  ∀ s t : State, step s = .next t →
    ∃ (k : Nat) (u u' : Encoder), s.all[k]? = some u ∧ t.all[k]? = some u' ∧
      (u.Moves u' ∨ ∃ a rest, s.host = ⟨k, a⟩ :: rest ∧
        ((∃ req din, a = .drive req din ∧ u' = { u with req := req, din := din }) ∨
         (∃ d, a.asks d ∧ u.ph = .idle ∧ u' = u.encoded d) ∨
         (a = .reset ∧ u'.ph = .idle ∧ u'.done = false ∧ u'.req = u.req ∧ u'.din = u.din))) ∧
      t.all.length = s.all.length ∧ ∀ j, j ≠ k → t.all[j]? = s.all[j]?

/-- R27, R168, R107: `DONE` rises only by OFFS or by the ENCODE of the word that the oldest host action asks for, and falls only by
LOAD or reset; while it stays up the result stays as it is, unless the oldest host action asks for the ENCODE of a word `d`, and
then the result is the one of that `d`. -/
def Obligations.DoneAndTheResultChangeOnlyAsStated : Prop :=
  ∀ s t : State, step s = .next t → ∀ (k : Nat) (u u' : Encoder), s.all[k]? = some u → t.all[k]? = some u' → u.Inv →
    (u.done = false → u'.done = true →
      (u.ph = .offs ∧ u'.regs = u.offsetApplied.regs) ∨ (u.ph = .idle ∧ ∃ d, s.asks k d ∧ u'.regs = (u.encoded d).regs)) ∧
    (u.done = true → u'.done = false →
      (u.ph = .idle ∧ u.req = true ∧ u'.regs = u.loaded.regs) ∨ ∃ rest, s.host = ⟨k, .reset⟩ :: rest) ∧
    (u.done = true → u'.done = true →
      (∀ d, s.asks k d → u'.regs = (u.encoded d).regs) ∧ ((∀ d, ¬ s.asks k d) → u'.regs = u.regs))

/-! ### The host -/

/-- R160: reset, in every state: `PH = IDLE`, `DONE = 0`, some values in `ACC`, `DREG`, `IDX`; `ready = 1` and `done = 0`. That the
levels on `req` and `din` (R28) stay is the model's choice, log entry 5. -/
def Obligations.ResetIsEnabledInEveryState : Prop :=
  ∀ (s s' : State) (k : Nat) (rest : List HostCmd), s.host = ⟨k, .reset⟩ :: rest → s.focusOn k = some s' →
    ∃ (t : State) (acc : Byte) (dreg : DataWord) (idx : Index), step s = .next t ∧
      t.unit = { s'.unit with ph := .idle, done := false, acc := acc, dreg := dreg, idx := idx } ∧
      t.unit.ready = true ∧ t.unit.doneOut = false ∧
      t.before = s'.before ∧ t.after = s'.after ∧ t.host = rest ∧ t.reply = s.reply

/-- R161: an operation that reset discards gives no result: with no new request, no number of clock events changes the instance
again. With a request still presented, ResetWithARequestPresentedTakesThatRequest says what follows. -/
def Obligations.ResetDiscardsTheRunningOperation : Prop :=
  ∀ (s : State) (n : Nat) (rest : List HostCmd), s.unit.ph ≠ .idle → s.unit.req = false →
    s.host = ⟨s.before.length, .reset⟩ :: clocks s.before.length n ++ rest →
    ∃ t, run (n + 1) s = .next t ∧ t.unit.ph = .idle ∧ t.unit.doneOut = false ∧ t.host = rest ∧ t.reply = s.reply

/-- R161, R160, R166: the same with the request still presented, in every phase: reset discards what was running, with no result; the
first clock event after it takes the LOAD of the word on `din`, and the 66th ends its ENCODE. That the levels on `req` and `din`
outlast the reset is the model's choice, log entry 5. -/
def Obligations.ResetWithARequestPresentedTakesThatRequest : Prop :=
  ∀ (s : State) (n : Nat) (rest : List HostCmd), s.unit.req = true → n ≤ 66 →
    s.host = ⟨s.before.length, .reset⟩ :: clocks s.before.length n ++ rest →
    ∃ t, run (n + 1) s = .next t ∧ t.host = rest ∧ t.reply = s.reply ∧ t.before = s.before ∧ t.after = s.after ∧
      t.unit.req = true ∧ t.unit.din = s.unit.din ∧
      (n = 0 → t.unit.ph = .idle ∧ t.unit.doneOut = false) ∧
      (1 ≤ n → n ≤ 65 → t.unit.ph ≠ .idle ∧ t.unit.doneOut = false ∧ t.unit.dreg = s.unit.din) ∧
      (n = 66 → t.unit = s.unit.encoded s.unit.din)

/-- R35, R34, R151: every instance is idle, with no result, after reset, and there are as many as asked for (log entry 7). That the
run is then over (R175) rests on the empty list of host actions after reset, the model's choice, log entry 5. -/
def Obligations.ResetLeavesEveryEncoderIdle : Prop :=
  State.reset = State.resetWith 0 ∧
  ∀ more : Nat, (State.resetWith more).all.length = more + 1 ∧ (State.resetWith more).runOver ∧
    ∀ u ∈ (State.resetWith more).all, u.ph = .idle ∧ u.done = false ∧ u.ready = true ∧ u.doneOut = false

/-- R29, R109: a read has no side effect on any instance, and while `done = 1` what it shows as `ecc` is the ECC value of the word
last loaded, in every state that the invariant admits. -/
def Obligations.ReadingShowsTheResultAndChangesNoEncoder : Prop :=
  ∀ (s s' : State) (k : Nat) (rest : List HostCmd), s.host = ⟨k, .read⟩ :: rest → s.focusOn k = some s' →
    ∃ (t : State) (e : Byte), step s = .next t ∧ t.all = s.all ∧ t.unit = s'.unit ∧ t.host = rest ∧
      t.reply = some (.sample (s'.unit.ph == .idle) s'.unit.done e) ∧
      (s'.unit.done = true → e = s'.unit.acc) ∧ (s'.unit.Inv → s'.unit.done = true → e = eccOf s'.unit.dreg)

/-- R28, R166, R169: setting the input ports changes no register of any instance. -/
def Obligations.DrivingThePortsChangesNoRegister : Prop :=
  ∀ (s s' : State) (k : Nat) (req : Bool) (din : DataWord) (rest : List HostCmd),
    s.host = ⟨k, .drive req din⟩ :: rest → s.focusOn k = some s' →
    step s = .next { s' with host := rest, unit := { s'.unit with req := req, din := din } } ∧
    ∀ t, step s = .next t → t.all.map Encoder.regs = s.all.map Encoder.regs

/-! ### Invariants -/

/-- The invariant of R105 and R106 holds right after reset, for any number of instances and whatever the host is about to do. -/
def Obligations.InvariantHoldsAtReset : Prop :=
  ∀ (more : Nat) (cmds : List HostCmd), State.Inv { State.resetWith more with host := cmds }

/-- The invariant of R105 and R106 is kept by every step, from every state that has it. -/
def Obligations.EveryStepKeepsTheInvariant : Prop :=
  ∀ s t : State, s.Inv → step s = .next t → t.Inv

/-- R105: the loop invariant of every instance in every reachable state. -/
def Obligations.LoopInvariantOfEveryReachableState : Prop :=
  ∀ s : State, Reachable s → ∀ u ∈ s.all,
    (u.ph = .accum →
      u.acc = xorAll (((List.range u.idx.toNat).filter fun i => u.dreg.getLsbD i).map
        fun i => parityRom (BitVec.ofNat 6 i)) ∧ u.done = false) ∧
    (u.ph = .offs → u.idx = 0#6 ∧ u.done = false ∧ u.acc = lin u.dreg)

/-- R106: the result of every instance in every reachable state. -/
def Obligations.ResultOfEveryReachableState : Prop :=
  ∀ s : State, Reachable s → ∀ u ∈ s.all, u.done = true →
    u.ph = .idle ∧ u.idx = 0#6 ∧ u.acc = lin u.dreg ^^^ 0x22#8 ∧ u.acc = eccOf u.dreg ∧
    ∀ draw : Byte, u.eccOut draw = eccOf u.dreg

/-! ### Whole operations -/

/-- R107, R104: the 66 micro-steps of an operation, taken at 66 clock events, are the one atomic ENCODE of the word on `din`. -/
def Obligations.SixtySixMicroStepsAreOneEncode : Prop :=
  ∀ (s : State) (rest : List HostCmd), s.unit.ph = .idle → s.unit.req = true →
    run 66 { s with host := clocks s.before.length 66 ++ rest } = exec (.encode s.unit.din) { s with host := rest }

/-- R104: one LOAD, then ACCUM at `0, 1, …, 63`, then one OFFS, for every data word; and a busy instance has no other transition than
its own micro-step and reset. -/
def Obligations.ScheduleOfAnOperationIsFixed : Prop :=
  (∀ (s : State) (n : Nat) (rest : List HostCmd), s.unit.ph = .idle → s.unit.req = true → n ≤ 66 →
    ∃ t, run n { s with host := clocks s.before.length n ++ rest } = .next t ∧ t.host = rest ∧
      (n = 0 → t.unit.select = some (.load s.unit.idx)) ∧
      (1 ≤ n → n ≤ 64 → t.unit.select = some (.accum (BitVec.ofNat 6 (n - 1)))) ∧
      (n = 65 → t.unit.select = some (.offs 0#6)) ∧
      (n = 66 → t.unit.ph = .idle ∧ t.unit.done = true)) ∧
  ∀ s t : State, step s = .next t → ∀ (k : Nat) (u u' : Encoder), s.all[k]? = some u → t.all[k]? = some u' →
    u.ph ≠ .idle →
      u'.regs = u.regs ∨ (u.ph = .accum ∧ u'.regs = u.accumulated.regs) ∨ (u.ph = .offs ∧ u'.regs = u.offsetApplied.regs) ∨
      ∃ rest, s.host = ⟨k, .reset⟩ :: rest

/-- R174: the schedule does not depend on the data: two instances that agree in `PH`, `DONE`, `IDX` and `req` agree in `PH`, `DONE`
and `IDX` after any number of clock events, whatever their words and accumulators are. -/
def Obligations.ScheduleDoesNotDependOnTheData : Prop :=
  ∀ (s s' : State) (n : Nat) (rest rest' : List HostCmd), s.unit.control = s'.unit.control → s.unit.req = s'.unit.req →
    ∃ t t', run n { s with host := clocks s.before.length n ++ rest } = .next t ∧
      run n { s' with host := clocks s'.before.length n ++ rest' } = .next t' ∧ t.unit.control = t'.unit.control

/-- R108, with the measure repaired: the model's measure `stepsLeft` is `65 - IDX` in phase ACCUM and 1 in phase OFFS (log entry 19,
DEDUCED), because the `64 - IDX` of R108 does not fall from ACCUM at index 63 to OFFS. Every clock event of a busy instance lowers it
by one, and after as many as it says the instance is idle with a result. -/
def Obligations.BusyEncoderEndsAfterItsMeasure : Prop :=
  ∀ (s : State) (rest : List HostCmd), s.unit.ph ≠ .idle →
    (∃ t, step { s with host := clocks s.before.length 1 ++ rest } = .next t ∧
      t.unit.stepsLeft + 1 = s.unit.stepsLeft) ∧
    ∃ t, run s.unit.stepsLeft { s with host := clocks s.before.length s.unit.stepsLeft ++ rest } = .next t ∧
      t.unit.ph = .idle ∧ t.unit.done = true ∧ t.unit.dreg = s.unit.dreg ∧ t.host = rest ∧
      t.before = s.before ∧ t.after = s.after

/-- R108, R173, R175: with the host done and no request presented, the run ends: every instance becomes idle. The fairness is the
model's cyclic order of the instances, log entry 9. -/
def Obligations.RunEndsOnceTheHostIsDone : Prop :=
  ∀ s : State, s.host = [] → (∀ u ∈ s.all, u.req = false) → ∃ n t, run n s = .next t ∧ t.runOver

/-- R112: two successive operations end as the second alone does from reset. -/
def Obligations.BackToBackOperationsAreIndependent : Prop :=
  ∀ (s : State) (d1 d2 : DataWord), s.unit.ph = .idle →
    ∃ t t',
      run 134 { s with host :=
        ⟨s.before.length, .drive true d1⟩ :: (clocks s.before.length 66 ++
          ⟨s.before.length, .drive true d2⟩ :: clocks s.before.length 66) } = .next t ∧
      run 67 { State.reset with host := ⟨0, .drive true d2⟩ :: clocks 0 66 } = .next t' ∧
      t.unit.regs = t'.unit.regs ∧ t.unit.ready = true ∧ t.unit.doneOut = true ∧
      ∀ draw : Byte, t.unit.eccOut draw = eccOf d2

/-- R151, R54: whatever the interleaving of the clock events of several instances, each request gets the ECC of its own word, an
instance that has no event is untouched, and only the number of events of an instance matters, not their order. -/
def Obligations.InterleavingDoesNotChangeAnyResult : Prop :=
  ∀ (s : State) (ks : List Nat), (∀ k ∈ ks, k < s.all.length) →
    ∃ t, run ks.length { s with host := ks.map fun k => ⟨k, .clock⟩ } = .next t ∧
      (∀ (k : Nat) (u : Encoder), s.all[k]? = some u → u.ph = .idle → u.req = true → ks.count k = 66 →
        t.all[k]? = some (u.encoded u.din)) ∧
      (∀ k, k ∉ ks → t.all[k]? = s.all[k]?) ∧
      ∀ ks' : List Nat, ks'.Perm ks →
        ∃ t', run ks'.length { s with host := ks'.map fun k => ⟨k, .clock⟩ } = .next t' ∧ t'.all = t.all
end

