-- ==== Sys2Proof/Laws/Linear.lean ====
section
/-! SUPPORT. The laws of the linear combination and of the ROM (spec/40_encode.md R81, R86, R90; spec/20_memory.md R43 to R47). -/

namespace Sys2Proof.Machine

/-- What one iteration adds to the accumulator: the entry, or nothing (R90). -/
def term (d : DataWord) (i : Index) : Byte := if dataBit d i then romRead i else 0x00#8

theorem accStep_eq_xor_term (d : DataWord) (acc : Byte) (i : Index) : accStep d acc i = acc ^^^ term d i := by
  unfold accStep term; split <;> simp

theorem dataBit_xor (a b : DataWord) (i : Index) : dataBit (a ^^^ b) i = (dataBit a i ^^ dataBit b i) := by
  simp [dataBit]

@[simp] theorem dataBit_zero (i : Index) : dataBit 0#64 i = false := by simp [dataBit]

@[simp] theorem term_zero (i : Index) : term 0#64 i = 0x00#8 := by simp [term]

theorem term_xor (a b : DataWord) (i : Index) : term (a ^^^ b) i = term a i ^^^ term b i := by
  unfold term; rw [dataBit_xor]; cases dataBit a i <;> cases dataBit b i <;> simp

theorem xor_interchange (a b c d : Byte) : (a ^^^ b) ^^^ (c ^^^ d) = (a ^^^ c) ^^^ (b ^^^ d) := by
  ac_rfl

@[simp] theorem linUpTo_nil (d : DataWord) : linUpTo d 0 = 0x00#8 := rfl

theorem linUpTo_succ (d : DataWord) (k : Nat) :
    linUpTo d (k + 1) = linUpTo d k ^^^ term d (BitVec.ofNat 6 k) := accStep_eq_xor_term ..

theorem linUpTo_xor (a b : DataWord) (k : Nat) : linUpTo (a ^^^ b) k = linUpTo a k ^^^ linUpTo b k := by
  induction k with
  | zero => simp
  | succ k ih => rw [linUpTo_succ, linUpTo_succ, linUpTo_succ, ih, term_xor, xor_interchange]

theorem linUpTo_zero (k : Nat) : linUpTo 0#64 k = 0x00#8 := by
  induction k with
  | zero => rfl
  | succ k ih => rw [linUpTo_succ, ih, term_zero]; rfl

theorem lin_xor (a b : DataWord) : lin (a ^^^ b) = lin a ^^^ lin b := linUpTo_xor a b 64

theorem lin_zero : lin 0#64 = 0x00#8 := linUpTo_zero 64

/-- Below an index at which every data bit is 0 the accumulator stays where it is. -/
theorem linUpTo_stays (d : DataWord) (j n : Nat) (h : ∀ m, j ≤ m → m < j + n → dataBit d (BitVec.ofNat 6 m) = false) :
    linUpTo d (j + n) = linUpTo d j := by
  induction n with
  | zero => rfl
  | succ n ih =>
    rw [← Nat.add_assoc, linUpTo_succ, ih fun m h1 h2 => h m h1 (by omega), term, h (j + n) (by omega) (by omega)]
    simp

theorem dataBit_one_shift (i j : Index) : dataBit (1#64 <<< i.toNat) j = decide (i = j) := by
  have hi := i.isLt
  have hj := j.isLt
  simp only [dataBit, BitVec.getLsbD_shiftLeft, BitVec.getLsbD_one]
  by_cases h : i = j
  · subst h; simp; omega
  · have : i.toNat ≠ j.toNat := fun e => h (BitVec.eq_of_toNat_eq e)
    simp [h]; omega

/-- A word with the one bit `i` set has the entry `i` as its linear part. -/
theorem lin_one_shift (i : Index) : lin (1#64 <<< i.toNat) = parityRom i := by
  have hi := i.isLt
  have below : linUpTo (1#64 <<< i.toNat) (0 + i.toNat) = linUpTo (1#64 <<< i.toNat) 0 := by
    apply linUpTo_stays
    intro m _ hm
    rw [dataBit_one_shift, decide_eq_false_iff_not]
    rintro rfl
    rw [BitVec.toNat_ofNat] at hm
    have := Nat.mod_eq_of_lt (show m < 2 ^ 6 by simp at hi ⊢; omega)
    omega
  have above : linUpTo (1#64 <<< i.toNat) (i.toNat + 1 + (63 - i.toNat)) = linUpTo (1#64 <<< i.toNat) (i.toNat + 1) := by
    apply linUpTo_stays
    intro m h1 h2
    rw [dataBit_one_shift, decide_eq_false_iff_not]
    intro e
    have := congrArg BitVec.toNat e
    rw [BitVec.toNat_ofNat, Nat.mod_eq_of_lt (by omega)] at this
    omega
  rw [show i.toNat + 1 + (63 - i.toNat) = 64 by omega] at above
  rw [lin, above, linUpTo_succ]
  rw [Nat.zero_add] at below
  rw [below, BitVec.ofNat_toNat, BitVec.setWidth_eq, term, dataBit_one_shift]
  simp [romRead]

/-- Affine-linearity of two words. -/
theorem eccOf_xor (a b : DataWord) : eccOf (a ^^^ b) = eccOf a ^^^ eccOf b ^^^ offset := by
  simp only [eccOf, lin_xor]
  generalize lin a = x; generalize lin b = y
  rw [show x ^^^ offset ^^^ (y ^^^ offset) ^^^ offset = x ^^^ y ^^^ offset ^^^ (offset ^^^ offset) by ac_rfl]
  simp

theorem eccOf_zero : eccOf 0#64 = offset := by rw [eccOf, lin_zero]; rfl

/-- Every table the model makes is admissible. -/
theorem romFrom_admissible (f : Index → Byte) : RomAdmissible (romFrom f) where
  entry0 := rfl
  entry1 := rfl
  entry2 := rfl
  relation := by
    simp only [romFrom, BitVec.reduceEq, if_true, if_false]
    generalize f 4#6 = a; generalize f 7#6 = b; generalize f 8#6 = c; generalize f 9#6 = d
    generalize f 32#6 = e; generalize f 33#6 = g; generalize f 36#6 = h
    rw [show a ^^^ b ^^^ c ^^^ d ^^^ e ^^^ g ^^^ h ^^^ (0x39#8 ^^^ a ^^^ b ^^^ c ^^^ d ^^^ e ^^^ g ^^^ h)
      = 0x39#8 ^^^ ((a ^^^ a) ^^^ (b ^^^ b) ^^^ (c ^^^ c) ^^^ (d ^^^ d) ^^^ (e ^^^ e) ^^^ (g ^^^ g) ^^^ (h ^^^ h)) by ac_rfl]
    simp

theorem parityRom_admissible : RomAdmissible parityRom := romFrom_admissible _

@[simp] theorem parityRom_zero : parityRom 0#6 = 0xF4#8 := rfl
@[simp] theorem parityRom_one : parityRom 1#6 = 0xF1#8 := rfl
@[simp] theorem parityRom_two : parityRom 2#6 = 0xEC#8 := rfl

end Sys2Proof.Machine
end

