-- ==== Sys2Proof/Laws/State.lean ====
section
/-! SUPPORT. One lemma for each field and each update of an instance and of the state, so that no proof unfolds an update. -/

namespace Sys2Proof.Machine

@[simp] theorem Encoder.setDone_ph (u : Encoder) : u.setDone.ph = u.ph := rfl
@[simp] theorem Encoder.setDone_done (u : Encoder) : u.setDone.done = true := rfl
@[simp] theorem Encoder.setDone_dreg (u : Encoder) : u.setDone.dreg = u.dreg := rfl
@[simp] theorem Encoder.setDone_idx (u : Encoder) : u.setDone.idx = u.idx := rfl
@[simp] theorem Encoder.setDone_acc (u : Encoder) : u.setDone.acc = u.acc := rfl
@[simp] theorem Encoder.setDone_req (u : Encoder) : u.setDone.req = u.req := rfl
@[simp] theorem Encoder.setDone_din (u : Encoder) : u.setDone.din = u.din := rfl

@[simp] theorem Encoder.clearDone_ph (u : Encoder) : u.clearDone.ph = u.ph := rfl
@[simp] theorem Encoder.clearDone_done (u : Encoder) : u.clearDone.done = false := rfl
@[simp] theorem Encoder.clearDone_dreg (u : Encoder) : u.clearDone.dreg = u.dreg := rfl
@[simp] theorem Encoder.clearDone_idx (u : Encoder) : u.clearDone.idx = u.idx := rfl
@[simp] theorem Encoder.clearDone_acc (u : Encoder) : u.clearDone.acc = u.acc := rfl
@[simp] theorem Encoder.clearDone_req (u : Encoder) : u.clearDone.req = u.req := rfl
@[simp] theorem Encoder.clearDone_din (u : Encoder) : u.clearDone.din = u.din := rfl

@[simp] theorem Encoder.loaded_ph (u : Encoder) : u.loaded.ph = .accum := rfl
@[simp] theorem Encoder.loaded_done (u : Encoder) : u.loaded.done = false := rfl
@[simp] theorem Encoder.loaded_dreg (u : Encoder) : u.loaded.dreg = u.din := rfl
@[simp] theorem Encoder.loaded_idx (u : Encoder) : u.loaded.idx = 0#6 := rfl
@[simp] theorem Encoder.loaded_acc (u : Encoder) : u.loaded.acc = 0x00#8 := rfl
@[simp] theorem Encoder.loaded_req (u : Encoder) : u.loaded.req = u.req := rfl
@[simp] theorem Encoder.loaded_din (u : Encoder) : u.loaded.din = u.din := rfl

@[simp] theorem Encoder.accumulated_ph (u : Encoder) : u.accumulated.ph = if u.idx = 63#6 then .offs else u.ph := rfl
@[simp] theorem Encoder.accumulated_done (u : Encoder) : u.accumulated.done = u.done := rfl
@[simp] theorem Encoder.accumulated_dreg (u : Encoder) : u.accumulated.dreg = u.dreg := rfl
@[simp] theorem Encoder.accumulated_idx (u : Encoder) : u.accumulated.idx = u.idx + 1#6 := rfl
@[simp] theorem Encoder.accumulated_acc (u : Encoder) : u.accumulated.acc = accStep u.dreg u.acc u.idx := rfl
@[simp] theorem Encoder.accumulated_req (u : Encoder) : u.accumulated.req = u.req := rfl
@[simp] theorem Encoder.accumulated_din (u : Encoder) : u.accumulated.din = u.din := rfl

@[simp] theorem Encoder.offsetApplied_ph (u : Encoder) : u.offsetApplied.ph = .idle := rfl
@[simp] theorem Encoder.offsetApplied_done (u : Encoder) : u.offsetApplied.done = true := rfl
@[simp] theorem Encoder.offsetApplied_dreg (u : Encoder) : u.offsetApplied.dreg = u.dreg := rfl
@[simp] theorem Encoder.offsetApplied_idx (u : Encoder) : u.offsetApplied.idx = u.idx := rfl
@[simp] theorem Encoder.offsetApplied_acc (u : Encoder) : u.offsetApplied.acc = u.acc ^^^ offset := rfl
@[simp] theorem Encoder.offsetApplied_req (u : Encoder) : u.offsetApplied.req = u.req := rfl
@[simp] theorem Encoder.offsetApplied_din (u : Encoder) : u.offsetApplied.din = u.din := rfl

@[simp] theorem Encoder.encoded_ph (u : Encoder) (d : DataWord) : (u.encoded d).ph = .idle := rfl
@[simp] theorem Encoder.encoded_done (u : Encoder) (d : DataWord) : (u.encoded d).done = true := rfl
@[simp] theorem Encoder.encoded_dreg (u : Encoder) (d : DataWord) : (u.encoded d).dreg = d := rfl
@[simp] theorem Encoder.encoded_idx (u : Encoder) (d : DataWord) : (u.encoded d).idx = 0#6 := rfl
@[simp] theorem Encoder.encoded_acc (u : Encoder) (d : DataWord) : (u.encoded d).acc = eccOf d := rfl
@[simp] theorem Encoder.encoded_req (u : Encoder) (d : DataWord) : (u.encoded d).req = u.req := rfl
@[simp] theorem Encoder.encoded_din (u : Encoder) (d : DataWord) : (u.encoded d).din = u.din := rfl

@[simp] theorem Encoder.afterReset_ph (u : Encoder) (n : Nat) : (u.afterReset n).ph = .idle := rfl
@[simp] theorem Encoder.afterReset_done (u : Encoder) (n : Nat) : (u.afterReset n).done = false := rfl
@[simp] theorem Encoder.afterReset_dreg (u : Encoder) (n : Nat) : (u.afterReset n).dreg = Config.freeDreg n := rfl
@[simp] theorem Encoder.afterReset_idx (u : Encoder) (n : Nat) : (u.afterReset n).idx = Config.freeIdx n := rfl
@[simp] theorem Encoder.afterReset_acc (u : Encoder) (n : Nat) : (u.afterReset n).acc = Config.freeAcc n := rfl
@[simp] theorem Encoder.afterReset_req (u : Encoder) (n : Nat) : (u.afterReset n).req = u.req := rfl
@[simp] theorem Encoder.afterReset_din (u : Encoder) (n : Nat) : (u.afterReset n).din = u.din := rfl

@[simp] theorem Encoder.atSeqWord_ph (u : Encoder) (p : Phase) (x : Index) : (u.atSeqWord p x).ph = p := rfl
@[simp] theorem Encoder.atSeqWord_done (u : Encoder) (p : Phase) (x : Index) : (u.atSeqWord p x).done = u.done := rfl
@[simp] theorem Encoder.atSeqWord_dreg (u : Encoder) (p : Phase) (x : Index) : (u.atSeqWord p x).dreg = u.dreg := rfl
@[simp] theorem Encoder.atSeqWord_idx (u : Encoder) (p : Phase) (x : Index) : (u.atSeqWord p x).idx = x := rfl
@[simp] theorem Encoder.atSeqWord_acc (u : Encoder) (p : Phase) (x : Index) : (u.atSeqWord p x).acc = u.acc := rfl
@[simp] theorem Encoder.atSeqWord_req (u : Encoder) (p : Phase) (x : Index) : (u.atSeqWord p x).req = if p = .idle then true else u.req := rfl
@[simp] theorem Encoder.atSeqWord_din (u : Encoder) (p : Phase) (x : Index) : (u.atSeqWord p x).din = u.din := rfl

@[simp] theorem State.setUnit_before (s : State) (u : Encoder) : (s.setUnit u).before = s.before := rfl
@[simp] theorem State.setUnit_unit (s : State) (u : Encoder) : (s.setUnit u).unit = u := rfl
@[simp] theorem State.setUnit_after (s : State) (u : Encoder) : (s.setUnit u).after = s.after := rfl
@[simp] theorem State.setUnit_host (s : State) (u : Encoder) : (s.setUnit u).host = s.host := rfl
@[simp] theorem State.setUnit_reply (s : State) (u : Encoder) : (s.setUnit u).reply = s.reply := rfl
@[simp] theorem State.setUnit_draws (s : State) (u : Encoder) : (s.setUnit u).draws = s.draws := rfl

@[simp] theorem State.setHost_before (s : State) (cs : List HostCmd) : (s.setHost cs).before = s.before := rfl
@[simp] theorem State.setHost_unit (s : State) (cs : List HostCmd) : (s.setHost cs).unit = s.unit := rfl
@[simp] theorem State.setHost_after (s : State) (cs : List HostCmd) : (s.setHost cs).after = s.after := rfl
@[simp] theorem State.setHost_host (s : State) (cs : List HostCmd) : (s.setHost cs).host = cs := rfl
@[simp] theorem State.setHost_reply (s : State) (cs : List HostCmd) : (s.setHost cs).reply = s.reply := rfl
@[simp] theorem State.setHost_draws (s : State) (cs : List HostCmd) : (s.setHost cs).draws = s.draws := rfl

@[simp] theorem State.answer_before (s : State) (r : Reply) : (s.answer r).before = s.before := rfl
@[simp] theorem State.answer_unit (s : State) (r : Reply) : (s.answer r).unit = s.unit := rfl
@[simp] theorem State.answer_after (s : State) (r : Reply) : (s.answer r).after = s.after := rfl
@[simp] theorem State.answer_host (s : State) (r : Reply) : (s.answer r).host = s.host := rfl
@[simp] theorem State.answer_reply (s : State) (r : Reply) : (s.answer r).reply = some r := rfl
@[simp] theorem State.answer_draws (s : State) (r : Reply) : (s.answer r).draws = s.draws := rfl

@[simp] theorem State.raise_before (s : State) (e : TextError) : (s.raise e).before = s.before := rfl
@[simp] theorem State.raise_unit (s : State) (e : TextError) : (s.raise e).unit = s.unit := rfl
@[simp] theorem State.raise_after (s : State) (e : TextError) : (s.raise e).after = s.after := rfl
@[simp] theorem State.raise_host (s : State) (e : TextError) : (s.raise e).host = s.host := rfl
@[simp] theorem State.raise_reply (s : State) (e : TextError) : (s.raise e).reply = some (.error e) := rfl
@[simp] theorem State.raise_draws (s : State) (e : TextError) : (s.raise e).draws = s.draws := rfl

@[simp] theorem State.resetUnit_before (s : State) : s.resetUnit.before = s.before := rfl
@[simp] theorem State.resetUnit_unit (s : State) : s.resetUnit.unit = s.unit.afterReset s.draws := rfl
@[simp] theorem State.resetUnit_after (s : State) : s.resetUnit.after = s.after := rfl
@[simp] theorem State.resetUnit_host (s : State) : s.resetUnit.host = s.host := rfl
@[simp] theorem State.resetUnit_reply (s : State) : s.resetUnit.reply = s.reply := rfl
@[simp] theorem State.resetUnit_draws (s : State) : s.resetUnit.draws = s.draws + 1 := rfl

@[simp] theorem State.drivePorts_before (s : State) (req : Bool) (din : DataWord) : (s.drivePorts req din).before = s.before := rfl
@[simp] theorem State.drivePorts_unit (s : State) (req : Bool) (din : DataWord) : (s.drivePorts req din).unit = { s.unit with req := req, din := din } := rfl
@[simp] theorem State.drivePorts_after (s : State) (req : Bool) (din : DataWord) : (s.drivePorts req din).after = s.after := rfl
@[simp] theorem State.drivePorts_host (s : State) (req : Bool) (din : DataWord) : (s.drivePorts req din).host = s.host := rfl
@[simp] theorem State.drivePorts_reply (s : State) (req : Bool) (din : DataWord) : (s.drivePorts req din).reply = s.reply := rfl
@[simp] theorem State.drivePorts_draws (s : State) (req : Bool) (din : DataWord) : (s.drivePorts req din).draws = s.draws := rfl

@[simp] theorem State.readPorts_before (s : State) : s.readPorts.before = s.before := rfl
@[simp] theorem State.readPorts_unit (s : State) : s.readPorts.unit = s.unit := rfl
@[simp] theorem State.readPorts_after (s : State) : s.readPorts.after = s.after := rfl
@[simp] theorem State.readPorts_host (s : State) : s.readPorts.host = s.host := rfl
@[simp] theorem State.readPorts_reply (s : State) : s.readPorts.reply = 
      some (.sample s.unit.ready s.unit.doneOut (s.unit.eccOut (Config.freeEcc s.draws))) := rfl
@[simp] theorem State.readPorts_draws (s : State) : s.readPorts.draws = if s.unit.done then s.draws else s.draws + 1 := rfl

@[simp] theorem State.present_before (s : State) (a : HostAction) : (s.present a).before = s.before := rfl
@[simp] theorem State.present_unit (s : State) (a : HostAction) : (s.present a).unit = s.unit := rfl
@[simp] theorem State.present_after (s : State) (a : HostAction) : (s.present a).after = s.after := rfl
@[simp] theorem State.present_host (s : State) (a : HostAction) : (s.present a).host = ⟨s.before.length, a⟩ :: s.host := rfl
@[simp] theorem State.present_reply (s : State) (a : HostAction) : (s.present a).reply = s.reply := rfl
@[simp] theorem State.present_draws (s : State) (a : HostAction) : (s.present a).draws = s.draws := rfl

@[simp] theorem State.setUnit_self (s : State) : s.setUnit s.unit = s := rfl
@[simp] theorem State.setUnit_setUnit (s : State) (u v : Encoder) : (s.setUnit u).setUnit v = s.setUnit v := rfl
@[simp] theorem State.setHost_setHost (s : State) (a b : List HostCmd) : (s.setHost a).setHost b = s.setHost b := rfl
@[simp] theorem State.setUnit_all (s : State) (u : Encoder) : (s.setUnit u).all = s.before ++ u :: s.after := rfl
@[simp] theorem State.setHost_all (s : State) (cs : List HostCmd) : (s.setHost cs).all = s.all := rfl
@[simp] theorem State.answer_all (s : State) (r : Reply) : (s.answer r).all = s.all := rfl
@[simp] theorem State.readPorts_all (s : State) : s.readPorts.all = s.all := rfl

@[ext] theorem State.ext_fields {s t : State} (hb : s.before = t.before) (hu : s.unit = t.unit) (ha : s.after = t.after)
    (hh : s.host = t.host) (hr : s.reply = t.reply) (hd : s.draws = t.draws) : s = t := by
  cases s; cases t; simp_all

@[ext] theorem Encoder.ext_fields {u v : Encoder} (h1 : u.ph = v.ph) (h2 : u.done = v.done) (h3 : u.dreg = v.dreg)
    (h4 : u.idx = v.idx) (h5 : u.acc = v.acc) (h6 : u.req = v.req) (h7 : u.din = v.din) : u = v := by
  cases u; cases v; simp_all

end Sys2Proof.Machine
end

