-- ==== Sys2Proof/Laws/Sequencer.lean ====
section
/-! SUPPORT. Decoding and encoding, and the agreement of the enumerated phase with the sequencer word (spec/30_encoding.md R66). -/

namespace Sys2Proof

theorem seq_fields (p : BitVec 2) (x : Index) :
    (p ++ x).extractLsb' 0 6 = x ∧ (p ++ x).extractLsb' 6 2 = p ∧ ((p ++ x) &&& 0xC0#8) = (p ++ 0#6) := by
  revert p x; decide

/-- A sequencer word decodes by its two phase bits. -/
theorem decodeSeq_append (p : BitVec 2) (x : Index) :
    decodeSeq (p ++ x) =
      if p = 0b00#2 then .ok (.load x) else if p = 0b01#2 then .ok (.accum x)
      else if p = 0b10#2 then .ok (.offs x) else .error .unusedPhase := by
  obtain ⟨h1, -, h3⟩ := seq_fields p x
  unfold decodeSeq
  rw [h1, h3]
  revert p; decide +revert

/-- Every sequencer word is a phase and an index. -/
theorem seq_split (q : BitVec 8) : q = (q.extractLsb' 6 2 ++ q.extractLsb' 0 6 : BitVec 8) := by
  revert q; decide

namespace Machine

/-- What the sequencer selects, said once. -/
theorem Encoder.select_cases (u : Encoder) :
    (u.ph = .idle ∧ u.req = false ∧ u.select = none) ∨
    (u.ph = .idle ∧ u.req = true ∧ u.select = some (.load u.idx)) ∨
    (u.ph = .accum ∧ u.select = some (.accum u.idx)) ∨
    (u.ph = .offs ∧ u.select = some (.offs u.idx)) := by
  unfold Encoder.select
  cases u.ph <;> cases u.req <;> simp

/-- The micro-step selected is the one the sequencer word stands for. -/
theorem decode_seqWord {u : Encoder} {i : Instr} (h : u.select = some i) : decode (.seq8 u.seqWord) = .ok i := by
  obtain ⟨-, -, e⟩ | ⟨hp, -, e⟩ | ⟨hp, e⟩ | ⟨hp, e⟩ := u.select_cases <;> rw [e] at h
  · simp at h
  all_goals
    simp only [Option.some.injEq] at h
    subst h
    simp [decode, Encoder.seqWord, hp, Phase.code, decodeSeq_append]

theorem phaseOfCode_code (p : Phase) : phaseOfCode p.code = some p := by cases p <;> rfl

theorem phaseOfCode_some {c : BitVec 2} {p : Phase} (h : phaseOfCode c = some p) : c = p.code := by
  revert h; revert c; cases p <;> decide

end Machine

end Sys2Proof
end

