-- ==== Sys2Proof/Laws/Text.lean ====
section
/-! SUPPORT. The laws of the text forms (spec/42_host_text_interface.md R121 to R124). -/

namespace Sys2Proof.Machine

theorem hexVal_hexDigit (v : BitVec 4) : hexVal (hexDigit v) = some v.toNat := by
  revert v; decide

theorem inAlphabet_hexDigit (v : BitVec 4) : inAlphabet (hexDigit v) = true := by
  simp [inAlphabet, hexVal_hexDigit]

theorem digitVal_hexDigit (v : BitVec 4) : digitVal (hexDigit v) = v.toNat := by
  simp [digitVal, hexVal_hexDigit]

theorem lookup_snd_lt (l : List (Char × Nat)) (b : Nat) (hl : ∀ p ∈ l, p.2 < b) (c : Char) (n : Nat)
    (h : l.lookup c = some n) : n < b := by
  induction l with
  | nil => simp at h
  | cons p l ih =>
    rw [List.lookup_cons] at h
    split at h
    · simp only [Option.some.injEq] at h; subst h; exact hl p (by simp)
    · exact ih (fun q hq => hl q (by simp [hq])) h

/-- A digit's value fits four bits. -/
theorem digitVal_lt (c : Char) : digitVal c < 16 := by
  unfold digitVal
  cases h : hexVal c with
  | none => simp
  | some n => exact lookup_snd_lt hexTable 16 (by decide) c n h

/-- What `ParseHex16` can answer, said once. -/
theorem parseHex16_cases (t : Text) :
    (t.length ≠ 16 ∧ parseHex16 t = .error .invalidLength) ∨
    (t.length = 16 ∧ t.all inAlphabet = false ∧ parseHex16 t = .error .invalidFormat) ∨
    (t.length = 16 ∧ t.all inAlphabet = true ∧ parseHex16 t = .ok (BitVec.ofNat 64 (hexSum t))) := by
  unfold parseHex16
  by_cases h1 : t.length = 16
  · by_cases h2 : t.all inAlphabet = true
    · exact .inr (.inr ⟨h1, h2, by rw [if_pos h1, if_pos h2]⟩)
    · exact .inr (.inl ⟨h1, by simpa using h2, by rw [if_pos h1, if_neg h2]⟩)
  · exact .inl ⟨h1, by rw [if_neg h1]⟩

/-- A string is parsed exactly when it is a valid form. -/
theorem parseHex16_ok_iff (t : Text) :
    (∃ d, parseHex16 t = .ok d) ↔ t.length = 16 ∧ t.all inAlphabet = true := by
  obtain ⟨h, e⟩ | ⟨h, h', e⟩ | ⟨h, h', e⟩ := parseHex16_cases t <;> simp_all

/-- The positional value, one character more: the running value moves up one digit. -/
theorem hexSum_append (t : Text) (c : Char) : hexSum (t ++ [c]) = 16 * hexSum t + digitVal c := by
  simp [hexSum]

theorem hexSum_lt (t : Text) : hexSum t < 16 ^ t.length := by
  induction t using List.reverseRecOn with
  | nil => simp [hexSum]
  | append_singleton t c ih =>
    rw [hexSum_append, List.length_append, List.length_singleton, Nat.pow_succ]
    have := digitVal_lt c
    omega

theorem formatHex2_length (e : Byte) : (formatHex2 e).length = 2 := rfl

theorem hexText_length (d : DataWord) : (hexText d).length = 16 := by simp [hexText]

theorem hexText_inAlphabet (d : DataWord) : (hexText d).all inAlphabet = true := by
  simp [hexText, inAlphabet_hexDigit]

end Sys2Proof.Machine
end

