-- ==== Sys2Proof/Laws/Exec.lean ====
section
/-! SUPPORT. What each meaning does, said once: its effect where it is enabled, nothing where it is not, and that it always answers
a next state (spec/40_encode.md, spec/41_datapath_steps.md, spec/42_host_text_interface.md R125, spec/60_exceptions.md R143). -/

namespace Sys2Proof.Machine

theorem execEncode_idle {s : State} (d : DataWord) (h : s.unit.ph = .idle) :
    execEncode d s = .next (s.setUnit (s.unit.encoded d)) := if_pos h

theorem execEncode_busy {s : State} (d : DataWord) (h : s.unit.ph ≠ .idle) : execEncode d s = .next s := if_neg h

theorem execEncodeHex_error {t : Text} {e : TextError} (s : State) (h : parseHex16 t = .error e) :
    execEncodeHex t s = .next (s.raise e) := by unfold execEncodeHex; rw [h]

theorem execEncodeHex_idle {t : Text} {d : DataWord} {s : State} (h : parseHex16 t = .ok d) (hp : s.unit.ph = .idle) :
    execEncodeHex t s = .next ((s.setUnit (s.unit.encoded d)).answer (.text (formatHex2 (eccOf d)))) := by
  unfold execEncodeHex; rw [h]; exact if_pos hp

theorem execEncodeHex_busy {t : Text} {d : DataWord} {s : State} (h : parseHex16 t = .ok d) (hp : s.unit.ph ≠ .idle) :
    execEncodeHex t s = .next s := by
  unfold execEncodeHex; rw [h]; exact if_neg hp

theorem execLoad_enabled {s : State} (x : Index) (h : s.unit.ph = .idle) (hr : s.unit.req = true) :
    execLoad x s = .next (s.setUnit s.unit.loaded) := if_pos (by simp [Encoder.canLoad, h, hr])

theorem execLoad_disabled {s : State} (x : Index) (h : ¬(s.unit.ph = .idle ∧ s.unit.req = true)) :
    execLoad x s = .next s := if_neg (by simpa [Encoder.canLoad] using h)

theorem execAccum_enabled {s : State} (i : Index) (h : s.unit.ph = .accum) (hi : s.unit.idx = i) :
    execAccum i s = .next (s.setUnit s.unit.accumulated) := if_pos ⟨h, hi⟩

theorem execAccum_disabled {s : State} (i : Index) (h : ¬(s.unit.ph = .accum ∧ s.unit.idx = i)) :
    execAccum i s = .next s := if_neg h

theorem execOffs_enabled {s : State} (x : Index) (h : s.unit.ph = .offs) :
    execOffs x s = .next (s.setUnit s.unit.offsetApplied) := if_pos h

theorem execOffs_disabled {s : State} (x : Index) (h : s.unit.ph ≠ .offs) : execOffs x s = .next s := if_neg h

/-- What an operation can do: it changes the instance addressed now by one of its moves, or by the whole ENCODE that it is, and
the reply, and nothing else. -/
theorem exec_cases (i : Instr) (s : State) :
    ∃ t, exec i s = .next t ∧
      (s.unit.Moves t.unit ∨ ∃ d, (i = .encode d ∨ ∃ w, i = .encodeHex w ∧ parseHex16 w = .ok d) ∧
        s.unit.ph = .idle ∧ t.unit = s.unit.encoded d) ∧
      t.before = s.before ∧ t.after = s.after ∧ t.host = s.host ∧ t.draws = s.draws := by
  cases i with
  | encode d =>
    by_cases h : s.unit.ph = .idle
    · exact ⟨_, execEncode_idle d h, .inr ⟨d, .inl rfl, h, rfl⟩, rfl, rfl, rfl, rfl⟩
    · exact ⟨_, execEncode_busy d h, .inl .stays, rfl, rfl, rfl, rfl⟩
  | encodeHex t =>
    cases hp : parseHex16 t with
    | error e => exact ⟨_, execEncodeHex_error s hp, .inl .stays, rfl, rfl, rfl, rfl⟩
    | ok d =>
      by_cases h : s.unit.ph = .idle
      · exact ⟨_, execEncodeHex_idle hp h, .inr ⟨d, .inr ⟨t, rfl, hp⟩, h, rfl⟩, rfl, rfl, rfl, rfl⟩
      · exact ⟨_, execEncodeHex_busy hp h, .inl .stays, rfl, rfl, rfl, rfl⟩
  | load x =>
    by_cases h : s.unit.ph = .idle ∧ s.unit.req = true
    · exact ⟨_, execLoad_enabled x h.1 h.2, .inl (.loads h), rfl, rfl, rfl, rfl⟩
    · exact ⟨_, execLoad_disabled x h, .inl .stays, rfl, rfl, rfl, rfl⟩
  | accum k =>
    by_cases h : s.unit.ph = .accum ∧ s.unit.idx = k
    · exact ⟨_, execAccum_enabled k h.1 h.2, .inl (.accumulates h.1), rfl, rfl, rfl, rfl⟩
    · exact ⟨_, execAccum_disabled k h, .inl .stays, rfl, rfl, rfl, rfl⟩
  | offs x =>
    by_cases h : s.unit.ph = .offs
    · exact ⟨_, execOffs_enabled x h, .inl (.offsets h), rfl, rfl, rfl, rfl⟩
    · exact ⟨_, execOffs_disabled x h, .inl .stays, rfl, rfl, rfl, rfl⟩

/-- What a clock event does in each phase. -/
theorem clockUnit_idle {s : State} (h : s.unit.ph = .idle) (hr : s.unit.req = false) : clockUnit s = .next s := by
  simp [clockUnit, Encoder.select, h, hr]

theorem clockUnit_load {s : State} (h : s.unit.ph = .idle) (hr : s.unit.req = true) :
    clockUnit s = .next (s.setUnit s.unit.loaded) := by
  simp [clockUnit, Encoder.select, h, hr, exec, execLoad_enabled]

theorem clockUnit_accum {s : State} (h : s.unit.ph = .accum) : clockUnit s = .next (s.setUnit s.unit.accumulated) := by
  simp [clockUnit, Encoder.select, h, exec, execAccum_enabled]

theorem clockUnit_offs {s : State} (h : s.unit.ph = .offs) : clockUnit s = .next (s.setUnit s.unit.offsetApplied) := by
  simp [clockUnit, Encoder.select, h, exec, execOffs_enabled]

/-- A clock event always answers a next state in which the instance addressed now has made one of its moves. -/
theorem clockUnit_cases (s : State) : ∃ u, clockUnit s = .next (s.setUnit u) ∧ s.unit.Moves u := by
  obtain ⟨h, hr, -⟩ | ⟨h, hr, -⟩ | ⟨h, -⟩ | ⟨h, -⟩ := s.unit.select_cases
  · exact ⟨_, clockUnit_idle h hr, .stays⟩
  · exact ⟨_, clockUnit_load h hr, .loads ⟨h, hr⟩⟩
  · exact ⟨_, clockUnit_accum h, .accumulates h⟩
  · exact ⟨_, clockUnit_offs h, .offsets h⟩

end Sys2Proof.Machine
end

