-- ==== Sys2Proof/Laws/Focus.lean ====
section
/-! SUPPORT. What addressing an instance does: it moves no instance and changes none (spec/60_exceptions.md R151). -/

namespace Sys2Proof.Machine

theorem splitAtUnit_append (b : List Encoder) (u : Encoder) (a : List Encoder) :
    splitAtUnit b.length (b ++ u :: a) = some (b, u, a) := by
  induction b with
  | nil => rfl
  | cons v b ih => simp [splitAtUnit, ih]

theorem splitAtUnit_some {k : Nat} {l b a : List Encoder} {u : Encoder} (h : splitAtUnit k l = some (b, u, a)) :
    l = b ++ u :: a ∧ b.length = k := by
  induction l generalizing k b with
  | nil => cases k <;> simp [splitAtUnit] at h
  | cons v l ih =>
    cases k with
    | zero => simp only [splitAtUnit, Option.some.injEq, Prod.mk.injEq] at h; obtain ⟨rfl, rfl, rfl⟩ := h; simp
    | succ k =>
      simp only [splitAtUnit] at h
      split at h
      · simp at h
      · next e =>
        simp only [Option.some.injEq, Prod.mk.injEq] at h
        obtain ⟨rfl, rfl, rfl⟩ := h
        obtain ⟨h1, h2⟩ := ih e
        simp [h1, h2]

theorem splitAtUnit_eq_none {k : Nat} {l : List Encoder} : splitAtUnit k l = none ↔ l.length ≤ k := by
  induction l generalizing k with
  | nil => cases k <;> simp [splitAtUnit]
  | cons v l ih =>
    cases k with
    | zero => simp [splitAtUnit]
    | succ k =>
      simp only [splitAtUnit, List.length_cons, Nat.add_le_add_iff_right, ← ih]
      split <;> simp_all

/-- What addressing instance `k` can answer. -/
theorem State.focusOn_some {s t : State} {k : Nat} (h : s.focusOn k = some t) :
    t.all = s.all ∧ t.before.length = k ∧ t.host = s.host ∧ t.reply = s.reply ∧ t.draws = s.draws := by
  unfold State.focusOn at h
  split at h
  · simp at h
  · next e =>
    obtain ⟨h1, h2⟩ := splitAtUnit_some e
    simp only [Option.some.injEq] at h
    subst h
    exact ⟨h1.symm, h2, rfl, rfl, rfl⟩

theorem State.focusOn_eq_none {s : State} {k : Nat} : s.focusOn k = none ↔ s.all.length ≤ k := by
  rw [← splitAtUnit_eq_none, State.focusOn]; split <;> simp_all

theorem State.focusOn_self (s : State) : s.focusOn s.before.length = some s := by
  unfold State.focusOn State.all; rw [splitAtUnit_append]

theorem State.unit_getElem (s : State) : s.all[s.before.length]? = some s.unit := by simp [State.all]

/-- Two states that have the same instances and the same rest agree once they address the same instance. -/
theorem State.eq_of_all {s t : State} (ha : s.all = t.all) (hb : s.before.length = t.before.length) (hh : s.host = t.host)
    (hr : s.reply = t.reply) (hd : s.draws = t.draws) : s = t := by
  have hs := splitAtUnit_append s.before s.unit s.after
  have ht := splitAtUnit_append t.before t.unit t.after
  have ha' : s.before ++ s.unit :: s.after = t.before ++ t.unit :: t.after := ha
  rw [ha', hb, ht] at hs
  simp only [Option.some.injEq, Prod.mk.injEq] at hs
  exact State.ext_fields hs.1.symm hs.2.1.symm hs.2.2.symm hh hr hd

theorem State.focusNext_spec (s : State) :
    s.focusNext.all = s.all ∧ s.focusNext.host = s.host ∧ s.focusNext.reply = s.reply ∧ s.focusNext.draws = s.draws := by
  unfold State.focusNext State.all
  split
  · next e => simp [e]
  · next e => split <;> simp_all

/-- The next instance in cyclic order. -/
theorem State.focusNext_index (s : State) :
    s.focusNext.before.length = (s.before.length + 1) % s.all.length := by
  unfold State.focusNext State.all
  split
  · next v rest e =>
    rw [e, List.length_append, List.length_append, Nat.mod_eq_of_lt] <;> simp
  · next e =>
    split
    · next e' => simp [e, e']
    · next v rest e' => simp [e, e']

theorem State.focusNext_alone {s : State} (hb : s.before = []) (ha : s.after = []) : s.focusNext = s := by
  unfold State.focusNext; rw [ha, hb]

theorem State.length_all (s : State) : s.all.length = s.before.length + 1 + s.after.length := by
  simp [State.all]; omega

end Sys2Proof.Machine
end

