-- ==== Sys2Proof/Laws/Step.lean ====
section
/-! SUPPORT. What one step can do, said once, and that it runs the operation that was placed. -/

namespace Sys2Proof.Machine

theorem runRaw_ok {r : Raw} {i : Instr} {s : State} (rest : List HostCmd) (hd : decode r = .ok i)
    (hn : needsIdle i = true → s.unit.ph = .idle) : runRaw r rest s = exec i (s.setHost rest) := by
  have : (needsIdle i && !s.unit.ready) = false := by
    cases h : needsIdle i
    · rfl
    · simp [Encoder.ready, hn h]
  simp [runRaw, hd, this]

theorem runRaw_held {r : Raw} {i : Instr} {s : State} (rest : List HostCmd) (hd : decode r = .ok i)
    (hn : needsIdle i = true) (hp : s.unit.ph ≠ .idle) : runRaw r rest s = clockUnit s := by
  simp [runRaw, hd, hn, Encoder.ready, hp]

/-- What a host action does to the instance it is addressed to, besides the instance's own moves: its ports are set (R28), it
takes the whole ENCODE that is asked for (R107), or it is reset (R160). -/
inductive Encoder.Serves (n : Nat) (u : Encoder) : HostAction → Encoder → Prop where
  | drives (req : Bool) (din : DataWord) : u.Serves n (.drive req din) { u with req := req, din := din }
  | encodes (a : HostAction) (d : DataWord) (ha : a.asks d) (h : u.ph = .idle) : u.Serves n a (u.encoded d)
  | resets : u.Serves n .reset (u.afterReset n)

/-- What a host action does: the instance addressed now makes one of its moves, or what the action asks of it, and no other instance
is touched. -/
theorem serve_cases (a : HostAction) (rest : List HostCmd) (s : State) :
    ∃ t, serve a rest s = .next t ∧ (s.unit.Moves t.unit ∨ s.unit.Serves s.draws a t.unit) ∧
      t.before = s.before ∧ t.after = s.after ∧ (t.host = rest ∨ t.host = s.host) := by
  have run : ∀ r i, decode r = .ok i → (∀ d, (i = .encode d ∨ ∃ w, i = .encodeHex w ∧ parseHex16 w = .ok d) → a.asks d) →
      ∃ t, runRaw r rest s = .next t ∧ (s.unit.Moves t.unit ∨ s.unit.Serves s.draws a t.unit) ∧
        t.before = s.before ∧ t.after = s.after ∧ (t.host = rest ∨ t.host = s.host) := by
    intro r i hd hi
    by_cases h : needsIdle i = true ∧ s.unit.ph ≠ .idle
    · obtain ⟨u, e, m⟩ := clockUnit_cases s
      exact ⟨_, (runRaw_held rest hd h.1 h.2).trans e, .inl m, rfl, rfl, .inr rfl⟩
    · obtain ⟨t, e, m, hb, ha, hh, -⟩ := exec_cases i (s.setHost rest)
      refine ⟨t, (runRaw_ok rest hd fun hn => Classical.byContradiction fun hp => h ⟨hn, hp⟩).trans e, ?_, hb, ha, .inl hh⟩
      obtain m | ⟨d, hd, hp, m⟩ := m
      · exact .inl m
      · exact .inr (by rw [m]; exact .encodes a d (hi d hd) hp)
  cases a with
  | request d => exact run (.req64 d) (.encode d) rfl fun w h => by simp_all [HostAction.asks]
  | call t => exact run (.hex16 t) (.encodeHex t) rfl fun w h => by simp_all [HostAction.asks]
  | drive req din => exact ⟨_, rfl, .inr (.drives req din), rfl, rfl, .inl rfl⟩
  | clock =>
    obtain ⟨u, e, m⟩ := clockUnit_cases (s.setHost rest)
    exact ⟨_, e, .inl m, rfl, rfl, .inl rfl⟩
  | reset => exact ⟨_, rfl, .inr .resets, rfl, rfl, .inl rfl⟩
  | read => exact ⟨_, rfl, .inl .stays, rfl, rfl, .inl rfl⟩

/-- What a step can do: it stops on an action to an instance that does not exist, and otherwise one instance, the one it then
addresses, makes one of its moves, or does what the oldest host action asks of it. -/
theorem step_cases (s : State) :
    (∃ c rest, s.host = c :: rest ∧ s.all.length ≤ c.target ∧ step s = .fault .noSuchInstance) ∨
    (∃ t u b a, step s = .next t ∧ s.all = b ++ u :: a ∧ t.all = b ++ t.unit :: a ∧ t.before = b ∧
      (u.Moves t.unit ∨ ∃ act rest, s.host = ⟨b.length, act⟩ :: rest ∧ u.Serves s.draws act t.unit) ∧
      (t.host = s.host ∨ t.host = s.host.tail)) := by
  cases hh : s.host with
  | nil =>
    obtain ⟨u, e, m⟩ := clockUnit_cases s.focusNext
    refine .inr ⟨s.focusNext.setUnit u, s.focusNext.unit, s.focusNext.before, s.focusNext.after, ?_, ?_, rfl, rfl, .inl m, .inl ?_⟩
    · simp only [step, hh]; exact e
    · exact s.focusNext_spec.1.symm
    · exact s.focusNext_spec.2.1.trans hh
  | cons c rest =>
    cases hf : s.focusOn c.target with
    | none => exact .inl ⟨c, rest, rfl, State.focusOn_eq_none.1 hf, by simp only [step, hh, hf]⟩
    | some s' =>
      obtain ⟨h1, h2, h3, -, h5⟩ := State.focusOn_some hf
      obtain ⟨t, e, m, hb, ha, ht⟩ := serve_cases c.action rest s'
      refine .inr ⟨t, s'.unit, s'.before, s'.after, by simp only [step, hh, hf]; exact e, h1.symm, ?_, hb, ?_, ?_⟩
      · rw [State.all, hb, ha]
      · rw [h5] at m
        exact m.imp_right fun m => ⟨c.action, rest, by rw [h2], m⟩
      · rw [h3, hh] at ht
        exact ht.symm

/-- A step on an action to the instance addressed now. -/
theorem step_present (s : State) (a : HostAction) : step (s.present a) = serve a s.host (s.present a) := by
  have h : (s.present a).focusOn s.before.length = some (s.present a) := (s.present a).focusOn_self
  simp only [step, State.present_host, h]

/-- A step on an action to instance `k`. -/
theorem step_action {s s' : State} {k : Nat} {a : HostAction} {rest : List HostCmd} (hh : s.host = ⟨k, a⟩ :: rest)
    (hf : s.focusOn k = some s') : step s = serve a rest s' := by simp only [step, hh, hf]

theorem State.readyFor_host (s : State) (i : Instr) : (s.readyFor i).host = s.host := by
  unfold State.readyFor; split <;> rfl

theorem State.readyFor_ph (s : State) (i : Instr) (h : needsIdle i = true) : (s.readyFor i).unit.ph = .idle := by
  unfold State.readyFor; rw [if_pos h]; rfl

/-- The step after placing a raw form runs exactly the operation it decodes to. -/
theorem step_placeRaw {r : Raw} {i : Instr} (s : State) (h : decode r = .ok i) :
    step (s.placeRaw r) = exec i ((s.placeRaw r).setHost s.host) := by
  cases r with
  | req64 w =>
    simp only [decode, Except.ok.injEq] at h; subst h
    rw [State.placeRaw, step_present, serve, State.readyFor_host]
    exact runRaw_ok _ rfl fun hn => s.readyFor_ph _ hn
  | hex16 cs =>
    simp only [decode, Except.ok.injEq] at h; subst h
    rw [State.placeRaw, step_present, serve, State.readyFor_host]
    exact runRaw_ok _ rfl fun hn => s.readyFor_ph _ hn
  | seq8 q =>
    obtain ⟨p, x, rfl⟩ : ∃ (p : BitVec 2) (x : Index), q = (p ++ x : BitVec 8) := ⟨_, _, seq_split q⟩
    obtain ⟨h1, h2, -⟩ := seq_fields p x
    rw [decode, decodeSeq_append] at h
    simp only [State.placeRaw]
    erw [h2, h1]
    unfold phaseOfCode
    split at h
    · next hp =>
      simp only [Except.ok.injEq] at h; subst h hp
      simp only [if_true, step_present, serve]
      simp [clockUnit, Encoder.select]
    split at h
    · next hp =>
      simp only [Except.ok.injEq] at h; subst h hp
      simp [step_present, serve, clockUnit, Encoder.select]
    split at h
    · next hp =>
      simp only [Except.ok.injEq] at h; subst h hp
      simp [step_present, serve, clockUnit, Encoder.select]
    · simp at h

end Sys2Proof.Machine
end

