-- ==== Sys2Proof/Laws/Invariant.lean ====
section
/-! SUPPORT. The invariant of an instance and what its moves do to it (spec/41_datapath_steps.md R105, R106). -/

namespace Sys2Proof.Machine

theorem Encoder.inv_of_idle {u : Encoder} (h : u.ph = .idle) (hd : u.done = false) : u.Inv :=
  ⟨fun e => by simp [h] at e, fun e => by simp [h] at e, fun e => by simp [hd] at e⟩

/-- Only `PH`, `DONE`, `DREG`, `IDX`, `ACC` matter to the invariant. -/
theorem Encoder.inv_ports {u : Encoder} (h : u.Inv) (req : Bool) (din : DataWord) : ({ u with req := req, din := din } : Encoder).Inv :=
  ⟨h.loop, h.summed, h.result⟩

theorem Encoder.afterReset_inv (u : Encoder) (n : Nat) : (u.afterReset n).Inv := Encoder.inv_of_idle rfl rfl

theorem Encoder.loaded_inv (u : Encoder) : u.loaded.Inv :=
  ⟨fun _ => ⟨rfl, rfl⟩, fun e => by simp at e, fun e => by simp at e⟩

theorem Encoder.encoded_inv (u : Encoder) (d : DataWord) : (u.encoded d).Inv :=
  ⟨fun e => by simp at e, fun e => by simp at e, fun _ => ⟨rfl, rfl, rfl⟩⟩

theorem Encoder.offsetApplied_inv {u : Encoder} (h : u.Inv) (hp : u.ph = .offs) : u.offsetApplied.Inv := by
  obtain ⟨hi, -, ha⟩ := h.summed hp
  exact ⟨fun e => by simp at e, fun e => by simp at e, fun _ => ⟨rfl, hi, by simp [ha, eccOf]⟩⟩

/-- One iteration of the loop: the running sum takes the next entry in, and at index 63 it is the whole sum (R101). -/
theorem Encoder.accumulated_inv {u : Encoder} (h : u.Inv) (hp : u.ph = .accum) : u.accumulated.Inv := by
  obtain ⟨ha, hd⟩ := h.loop hp
  have hlt := u.idx.isLt
  have sum : accStep u.dreg u.acc u.idx = linUpTo u.dreg (u.idx.toNat + 1) := by
    rw [linUpTo_succ, ← accStep_eq_xor_term, ← ha, BitVec.ofNat_toNat, BitVec.setWidth_eq]
  by_cases h63 : u.idx = 63#6
  · refine ⟨fun e => by simp [h63] at e, fun _ => ⟨by simp [h63], hd, ?_⟩, fun e => by simp [hd] at e⟩
    rw [Encoder.accumulated_acc, Encoder.accumulated_dreg, sum, h63]; rfl
  · have hne : u.idx.toNat ≠ 63 := fun e => h63 (BitVec.eq_of_toNat_eq e)
    refine ⟨fun _ => ⟨?_, hd⟩, fun e => by simp [h63, hp] at e, fun e => by simp [hd] at e⟩
    rw [Encoder.accumulated_acc, Encoder.accumulated_dreg, Encoder.accumulated_idx, sum, BitVec.toNat_add,
      show (1#6).toNat = 1 from rfl, Nat.mod_eq_of_lt (by omega)]

/-- Every move of an instance keeps its invariant. -/
theorem Encoder.Moves.inv {u v : Encoder} (h : u.Inv) (m : u.Moves v) : v.Inv := by
  cases m with
  | stays => exact h
  | loads _ => exact u.loaded_inv
  | accumulates hp => exact Encoder.accumulated_inv h hp
  | offsets hp => exact Encoder.offsetApplied_inv h hp

/-- Whatever a host action does to an instance keeps its invariant. -/
theorem Encoder.Serves.inv {u v : Encoder} {n : Nat} {a : HostAction} (h : u.Inv) (m : u.Serves n a v) : v.Inv := by
  cases m with
  | drives req din => exact Encoder.inv_ports h req din
  | encodes _ d _ _ => exact u.encoded_inv d
  | resets => exact u.afterReset_inv n

end Sys2Proof.Machine
end

