-- ==== Sys2Proof/Laws/PerInstr.lean ====
section
/-! SUPPORT. Statements about every operation, one lemma for each constructor. -/

namespace Sys2Proof.Laws.RoundTrip

/-- Decoding the raw form of an operation gives the operation back, with every operand (R60, R62, R66). -/
def Statement (i : Instr) : Prop := decode (Sys2Proof.encode i) = .ok i

theorem encode (d : DataWord) : Statement (.encode d) := rfl

theorem encodeHex (t : Text) : Statement (.encodeHex t) := rfl

theorem load (x : Index) : Statement (.load x) := by
  simp [Statement, Sys2Proof.encode, decode, decodeSeq_append]

theorem accum (i : Index) : Statement (.accum i) := by
  simp [Statement, Sys2Proof.encode, decode, decodeSeq_append]

theorem offs (x : Index) : Statement (.offs x) := by
  simp [Statement, Sys2Proof.encode, decode, decodeSeq_append]

end Sys2Proof.Laws.RoundTrip
end

