-- ==== Sys2Proof/Laws/Run.lean ====
section
/-! SUPPORT. Runs of several steps, and what a row of clock events does to one instance (spec/41_datapath_steps.md R103). -/

namespace Sys2Proof.Machine

@[simp] theorem run_zero (s : State) : run 0 s = .next s := rfl

theorem run_succ {s t : State} (k : Nat) (h : step s = .next t) : run (k + 1) s = run k t := by
  have h' : Sys2Proof.core.step s = .next t := h
  simp only [run, Host.Core.run, h']; rfl

theorem run_fault {s : State} {f : Fault} (k : Nat) (h : step s = .fault f) : run (k + 1) s = .fault f := by
  have h' : Sys2Proof.core.step s = .fault f := h
  simp only [run, Host.Core.run, h']; rfl

/-- Two runs, one after the other. -/
theorem run_add {s t : State} (j k : Nat) (h : run j s = .next t) : run (j + k) s = run k t := by
  induction j generalizing s with
  | zero => simp only [run_zero, Host.Outcome.next.injEq] at h; subst h; rw [Nat.zero_add]
  | succ j ih =>
    obtain ⟨c, rest, -, -, e⟩ | ⟨s', u, b, a, e, -⟩ := step_cases s
    · rw [run_fault j e] at h; simp at h
    · rw [run_succ j e] at h; rw [Nat.add_right_comm, run_succ _ e, ih h]

/-- The instance after one clock event (R103). -/
def Encoder.clocked (u : Encoder) : Encoder :=
  match u.ph with
  | .idle => if u.req then u.loaded else u
  | .accum => u.accumulated
  | .offs => u.offsetApplied

theorem clockUnit_eq (s : State) : clockUnit s = .next (s.setUnit s.unit.clocked) := by
  obtain ⟨h, hr, -⟩ | ⟨h, hr, -⟩ | ⟨h, -⟩ | ⟨h, -⟩ := s.unit.select_cases
  · rw [clockUnit_idle h hr]; simp [Encoder.clocked, h, hr]
  · rw [clockUnit_load h hr]; simp [Encoder.clocked, h, hr]
  · rw [clockUnit_accum h]; simp [Encoder.clocked, h]
  · rw [clockUnit_offs h]; simp [Encoder.clocked, h]

/-- A step on a clock event of the instance addressed now. -/
theorem step_clock (s : State) (rest : List HostCmd) :
    step { s with host := ⟨s.before.length, .clock⟩ :: rest } = .next { s with host := rest, unit := s.unit.clocked } := by
  rw [step_action (s' := { s with host := ⟨s.before.length, .clock⟩ :: rest }) rfl (State.focusOn_self _)]
  exact clockUnit_eq _

/-- A step that sets the input ports of the instance addressed now. -/
theorem step_drive (s : State) (req : Bool) (din : DataWord) (rest : List HostCmd) :
    step { s with host := ⟨s.before.length, .drive req din⟩ :: rest } =
      .next { s with host := rest, unit := { s.unit with req := req, din := din } } := by
  rw [step_action (s' := { s with host := ⟨s.before.length, .drive req din⟩ :: rest }) rfl (State.focusOn_self _)]
  rfl

/-- A row of clock events of the instance addressed now. -/
theorem run_clocks (n : Nat) (s : State) (rest : List HostCmd) :
    run n { s with host := clocks s.before.length n ++ rest } =
      .next { s with host := rest, unit := Encoder.clocked^[n] s.unit } := by
  induction n generalizing s with
  | zero => rfl
  | succ n ih =>
    have split : clocks s.before.length (n + 1) ++ rest =
        ⟨s.before.length, .clock⟩ :: (clocks s.before.length n ++ rest) := rfl
    rw [split, run_succ n (step_clock s _)]
    exact ih { s with unit := s.unit.clocked }

end Sys2Proof.Machine
end

