-- ==== Sys2Proof/Tests/Slice0.lean ====
section
/-! SUPPORT. Tests: expected results are those of spec/95_test_vectors.md and of the worked examples of the rules, never the
model's own; and one witness for each statement that has hypotheses. -/

namespace Sys2Proof.Tests

open Sys2Proof.Machine

/-- An instance `(PH, DONE, DREG, IDX, ACC)` with no request presented. -/
def unitOf (ph : Phase) (done : Bool) (dreg : DataWord) (idx : Index) (acc : Byte) : Encoder :=
  ⟨ph, done, dreg, idx, acc, false, 0#64⟩

/-- The same with the request `din` presented. -/
def asking (u : Encoder) (din : DataWord) : Encoder := { u with req := true, din := din }

/-- A machine of one instance. -/
def alone (u : Encoder) (host : List HostCmd) : State := ⟨[], u, [], host, none, 0⟩

/-- A machine of two instances, the second one addressed. -/
def pair (u v : Encoder) (host : List HostCmd) : State := ⟨[u], v, [], host, none, 0⟩

def fresh : Encoder := unitOf .idle false 0#64 0#6 0x00#8
def finished : Encoder := unitOf .idle true 0x7#64 0#6 0xCB#8
def midway : Encoder := unitOf .accum false 0x5#64 2#6 0xF4#8
def lastTurn : Encoder := unitOf .accum false 0x5#64 63#6 0x18#8
def summed : Encoder := unitOf .offs false 0x5#64 0#6 0x18#8

def hex7 : Text := ['0', '0', '0', '0', '0', '0', '0', '0', '0', '0', '0', '0', '0', '0', '0', '7']
def hexX : Text := ['0', 'x', '0', '0', '0', '0', '0', '0', '0', '0', '0', '0', '0', '0', '0', '0']

/-! ### WellFormed refuses what it must (R68) -/

theorem test_wellFormed_refuses_length : (Instr.encodeHex ['g']).wellFormed = false := by decide
theorem test_wellFormed_refuses_alphabet : (Instr.encodeHex hexX).wellFormed = false := by decide
theorem test_wellFormed_accepts : (Instr.encodeHex hex7).wellFormed = true := by decide

/-! ### Words of the table (R60, R62, R66) -/

theorem test_decode_encode : decodeTableWord 64 0x8000000000000001 = some (.encode 0x8000000000000001#64) := by decide
theorem test_decode_encodeHex :
    decodeTableWord 128 (0x37 * 256 ^ 15 + 0x303030303030303030303030303030) = some (.encodeHex hex7) := by decide
theorem test_decode_load : decode (.seq8 0b00000000#8) = .ok (.load 0#6) := by decide
theorem test_decode_accum : decode (.seq8 0b01100001#8) = .ok (.accum 33#6) := by decide
theorem test_decode_offs : decode (.seq8 0b10000000#8) = .ok (.offs 0#6) := by decide
theorem test_decode_unused : decode (.seq8 0b11000001#8) = .error .unusedPhase := by decide

/-! ### The function (V-A3, V-B6) -/

theorem test_ecc_of_3 : eccOf 0x3#64 = 0x27#8 := by decide

theorem test_lin_of_the_relation : lin 0x0000041300000390#64 = 0x39#8 := by
  have entries : lin 0x0000041300000390#64 =
      0x00#8 ^^^ parityRom 4#6 ^^^ parityRom 7#6 ^^^ parityRom 8#6 ^^^ parityRom 9#6 ^^^ parityRom 32#6 ^^^
        parityRom 33#6 ^^^ parityRom 36#6 ^^^ parityRom 42#6 := rfl
  rw [entries, BitVec.zero_xor]
  exact parityRom_admissible.relation

theorem test_ecc_with_leading_zero : formatHex2 (eccOf 0x0000041300000395#64) = ['0', '3'] := by
  have split : (0x0000041300000395#64 : DataWord) = 0x0000041300000390#64 ^^^ 0x5#64 := by decide
  rw [split, eccOf, lin_xor, test_lin_of_the_relation]
  decide

/-! ### Text (V-P5, V-P8, V-E2, V-E6, V-E12) -/

theorem test_parse_mixed_case :
    parseHex16 ['0', '0', '0', '0', '0', '0', '0', '0', 'D', 'e', 'a', 'd', 'B', 'e', 'e', 'f'] = .ok 0x00000000DEADBEEF#64 := by
  decide
theorem test_parse_first_character_is_most_significant :
    parseHex16 ['8', '0', '0', '0', '0', '0', '0', '0', '0', '0', '0', '0', '0', '0', '0', '0'] = .ok 0x8000000000000000#64 := by
  decide
theorem test_parse_short : parseHex16 (List.replicate 15 '0') = .error .invalidLength := by decide
theorem test_parse_prefix : parseHex16 hexX = .error .invalidFormat := by decide
theorem test_format_03 : formatHex2 0x03#8 = ['0', '3'] := by decide
theorem test_error_codes : errorCode none = 0 ∧ errorCode (some .invalidLength) = 1 ∧ errorCode (some .invalidFormat) = 2 := by
  decide

/-! ### One step of each operation (V-A7, V-E4, V-P11, V-S2, V-S6, V-S7, V-S9, V-S10, V-S11) -/

theorem test_encode_7 :
    exec (.encode 0x7#64) (alone fresh []) = .next (alone (unitOf .idle true 0x7#64 0#6 0xCB#8) []) := by
  simp only [exec, execEncode_idle (s := alone fresh []) 0x7#64 rfl]
  have ecc : eccOf 0x7#64 = 0xCB#8 := by decide
  simp [State.setUnit, Encoder.encoded, ecc, alone, fresh, unitOf, Encoder.setDone]

theorem test_encodeHex_7 :
    ∃ t, exec (.encodeHex hex7) (alone fresh []) = .next t ∧ t.reply = some (.text ['c', 'b']) :=
  ⟨_, execEncodeHex_idle (t := hex7) (d := 0x7#64) (s := alone fresh []) (by decide) rfl, by decide⟩

theorem test_encodeHex_g :
    exec (.encodeHex ['g']) (alone finished []) = .next { alone finished [] with reply := some (.error .invalidLength) } := rfl

theorem test_load_replaces_the_result :
    exec (.load 0#6) (alone (asking finished 0x0#64) []) =
      .next (alone (asking (unitOf .accum false 0x0#64 0#6 0x00#8) 0x0#64) []) := rfl

theorem test_accum_bit_2 :
    ∃ t, exec (.accum 2#6) (alone midway []) = .next t ∧ t.unit = unitOf .accum false 0x5#64 3#6 0x18#8 :=
  ⟨_, rfl, by decide⟩

theorem test_accum_wraps_and_ignores_a_request :
    ∃ t, exec (.accum 63#6) (alone (asking lastTurn 0x1#64) []) = .next t ∧ t.unit = asking summed 0x1#64 :=
  ⟨_, rfl, by decide⟩

theorem test_offs_5 :
    ∃ t, exec (.offs 0#6) (alone summed []) = .next t ∧ t.unit = unitOf .idle true 0x5#64 0#6 0x3A#8 :=
  ⟨_, rfl, by decide⟩

theorem test_offs_result_zero :
    ∃ t, exec (.offs 0#6) (alone (unitOf .offs false 0x9#64 0#6 0x22#8) []) = .next t ∧ t.unit.acc = 0x00#8 :=
  ⟨_, rfl, by decide⟩

/-! ### Each row of the table runs as the first operation after reset -/

theorem test_first_encode : ∃ t, step (State.reset.withFetchWord 64 7) = .next t ∧ t.unit.acc = 0xCB#8 := ⟨_, rfl, by decide⟩
theorem test_first_encodeHex : ∃ t, step (State.reset.withFetchWord 16 0) = .next t ∧ t.reply = some (.text ['2', '2']) :=
  ⟨_, rfl, by decide⟩
theorem test_first_load : ∃ t, step (State.reset.withFetchWord 8 0b00000000) = .next t ∧ t.unit.ph = .accum := ⟨_, rfl, rfl⟩
theorem test_first_accum : ∃ t, step (State.reset.withFetchWord 8 0b01111111) = .next t ∧ t.unit.ph = .offs := ⟨_, rfl, by decide⟩
theorem test_first_offs : ∃ t, step (State.reset.withFetchWord 8 0b10000000) = .next t ∧ t.unit.done = true := ⟨_, rfl, rfl⟩

/-! ### Witnesses: a concrete state and operands that meet the hypotheses of each statement that has any -/

theorem fresh_inv : fresh.Inv := Encoder.inv_of_idle rfl rfl
theorem finished_inv : finished.Inv := by
  have h : finished = fresh.encoded 0x7#64 := by decide
  rw [h]; exact fresh.encoded_inv _
theorem summed_inv : summed.Inv :=
  ⟨fun h => by simp [summed, unitOf] at h, fun _ => ⟨rfl, rfl, by decide⟩, fun h => by simp [summed, unitOf] at h⟩
theorem midway_inv : midway.Inv :=
  ⟨fun _ => by decide, fun h => by simp [midway, unitOf] at h, fun h => by simp [midway, unitOf] at h⟩

theorem witness_LinIsTheLinearCombinationOfTheSelectedEntries : (0 : Nat) < 8 ∧ (7 : Nat) < 8 := by decide
theorem witness_EachEccBitIsAParityTree : (1 : Nat) < 8 ∧ (5 : Nat) < 8 ∧ (7 : Nat) < 8 := by decide
theorem witness_RomRangesOverExactlyTheAdmissibleTables : RomAdmissible parityRom := parityRom_admissible
theorem witness_ZeroWordEncodesToTheOffset : (alone fresh []).unit.ph = .idle := rfl
theorem witness_AccumulationOrderDoesNotMatter :
    (((List.range 64).map fun i => BitVec.ofNat 6 i).reverse).Perm ((List.range 64).map fun i => BitVec.ofNat 6 i) ∧
    ([((List.range 64).map fun i => BitVec.ofNat 6 i)].flatten).Perm ((List.range 64).map fun i => BitVec.ofNat 6 i) :=
  ⟨List.reverse_perm _, by simp⟩
theorem witness_EncodeCompletesWithTheValueOfTheLoop : (alone finished []).unit.ph = .idle := rfl
theorem witness_RequestToABusyEncoderIsHeld :
    let s := alone midway [⟨0, .call hex7⟩]
    s.unit.ph ≠ .idle ∧ parseHex16 hex7 = .ok 0x7#64 ∧ s.host = ⟨s.before.length, .call hex7⟩ :: [] ∧
    (alone summed [⟨0, .request 0x7#64⟩]).unit.ph ≠ .idle := by decide
theorem witness_HiddenRegistersOfAnIdleEncoderHaveNoInfluence :
    (alone (asking finished 0x1#64) []).unit.ph = .idle ∧ (alone (asking finished 0x1#64) []).unit.req = true ∧
    parseHex16 hex7 = .ok 0x7#64 := by decide
theorem witness_LoadTakesTheWordOnDin :
    (alone (asking fresh 0x7#64) []).unit.ph = .idle ∧ (alone (asking fresh 0x7#64) []).unit.req = true := by decide
theorem witness_AccumAddsTheEntryOfASetBit :
    (alone midway []).unit.ph = .accum ∧ (alone lastTurn []).unit.ph = .accum ∧ lastTurn.idx.toNat = 63 := by decide
theorem witness_OffsAppliesTheOffsetAndSetsDone : (alone summed []).unit.ph = .offs ∧ (alone summed []).unit.Inv :=
  ⟨rfl, summed_inv⟩
theorem witness_MicroStepNotSelectedChangesNothing :
    ¬((alone fresh []).unit.ph = .idle ∧ (alone fresh []).unit.req = true) ∧
    ¬((alone midway []).unit.ph = .accum ∧ (alone midway []).unit.idx = 3#6) ∧ (alone midway []).unit.ph ≠ .offs := by decide
theorem witness_SequencerWordSelectsTheMicroStep :
    ((asking fresh 0x7#64).seqWord.extractLsb' 6 2 = 0b00#2 ∧ (asking fresh 0x7#64).req = true) ∧
    (fresh.seqWord.extractLsb' 6 2 = 0b00#2 ∧ fresh.req = false) ∧
    lastTurn.seqWord.extractLsb' 6 2 = 0b01#2 ∧ summed.seqWord.extractLsb' 6 2 = 0b10#2 ∧
    lastTurn.select = some (.accum 63#6) ∧ summed.ph = .offs := by decide
theorem witness_ParseHex16ValidatesThenAddsUpTheDigits :
    (List.replicate 17 '0').length ≠ 16 ∧ (hexX.length = 16 ∧ ∃ c ∈ hexX, c ∉ alphabet22) ∧
    (hex7.length = 16 ∧ ∀ c ∈ hex7, c ∈ alphabet22) ∧ (0 : Nat) < 16 ∧ (15 : Nat) < 16 :=
  ⟨by decide, ⟨rfl, 'x', by decide, by decide⟩, ⟨rfl, by simp [hex7, alphabet22]⟩, by decide, by decide⟩
theorem witness_LetterCaseDoesNotMatter : (['d', 'E'] : Text).map Char.toLower = ['D', 'e'].map Char.toLower := by decide
theorem witness_EncodeHexReturnsThePrintedCode : parseHex16 hex7 = .ok 0x7#64 ∧ (alone finished []).unit.ph = .idle := by decide
theorem witness_InvalidTextRaisesItsErrorAndChangesNothingElse :
    parseHex16 ['g'] = .error .invalidLength ∧ parseHex16 hexX = .error .invalidFormat := by decide
theorem witness_ErrorLeavesNoTraceForTheNextOperation : parseHex16 hexX = .error .invalidFormat := by decide
theorem witness_HeldTextCallIsAnsweredWithItsCode :
    let s := alone midway [⟨0, .call hex7⟩, ⟨0, .read⟩]
    parseHex16 hex7 = .ok 0x7#64 ∧ s.host = ⟨s.before.length, .call hex7⟩ :: [⟨0, .read⟩] := by decide
theorem witness_DecodeAndEncodeAgree : decode (.seq8 0b01111111#8) = .ok (.accum 63#6) := by decide
theorem witness_StepRunsTheDecodedOperation :
    (let s := pair fresh finished [⟨0, .request 0x7#64⟩]
     s.focusOn 0 = some ⟨[], fresh, [finished], [⟨0, .request 0x7#64⟩], none, 0⟩ ∧ fresh.ph = .idle ∧
       decode (.req64 0x7#64) = .ok (.encode 0x7#64)) ∧
    (let s := pair fresh midway [⟨1, .call hexX⟩]
     s.focusOn 1 = some s ∧ decode (.hex16 hexX) = .ok (.encodeHex hexX) ∧ (Instr.encodeHex hexX).wellFormed = false) ∧
    (let s := pair fresh (asking finished 0x1#64) [⟨1, .clock⟩]
     s.focusOn 1 = some s ∧ decode (.seq8 s.unit.seqWord) = .ok (.load 0#6) ∧ s.unit.req = true) ∧
    (let s := pair fresh finished [⟨1, .clock⟩]
     s.focusOn 1 = some s ∧ s.unit.ph = .idle ∧ s.unit.req = false) ∧
    (let s := pair lastTurn finished []
     s.focusOn 1 = some s ∧ s.host = [] ∧ decode (.seq8 s.focusNext.unit.seqWord) = .ok (.accum 63#6) ∧
       s.focusNext.unit.ph ≠ .idle) ∧
    (let s := pair finished midway []
     s.focusOn 1 = some s ∧ s.host = [] ∧ s.focusNext.unit.ph = .idle ∧ s.focusNext.unit.req = false ∧
       s.focusNext.unit.done = true) := by decide
theorem witness_PlacedOperationIsTheNextOneRun : decodeTableWord 8 0b01111111 = some (.accum 63#6) := by decide
theorem witness_EveryOperationAnswersANextState : ∀ u : Text, Instr.offs 0#6 ≠ .encodeHex u := by intro u h; cases h
theorem witness_StepStopsOnlyOnAMissingEncoder :
    (∃ c rest, (alone fresh [⟨1, .read⟩]).host = c :: rest ∧ (alone fresh [⟨1, .read⟩]).all.length ≤ c.target) ∧
    step (alone fresh []) ≠ .fault .noSuchInstance := ⟨⟨⟨1, .read⟩, [], rfl, by decide⟩, by intro h; cases h⟩
theorem witness_MachineNeverStopsForAnAdmissibleHost :
    ∀ c ∈ (pair fresh midway [⟨1, .reset⟩, ⟨0, .read⟩]).host, c.target < (pair fresh midway []).all.length := by decide
theorem witness_StepMovesOneEncoderByAnAllowedTransition :
    (∃ t, step (pair fresh midway [⟨1, .clock⟩]) = .next t) ∧ (∃ t, step (pair fresh midway [⟨0, .request 0x1#64⟩]) = .next t) ∧
    (∃ t, step (pair fresh midway [⟨1, .drive true 0x1#64⟩]) = .next t) ∧ ∃ t, step (pair fresh midway [⟨1, .reset⟩]) = .next t :=
  ⟨⟨_, rfl⟩, ⟨_, rfl⟩, ⟨_, rfl⟩, ⟨_, rfl⟩⟩
theorem witness_DoneAndTheResultChangeOnlyAsStated :
    (∃ t, step (alone summed [⟨0, .clock⟩]) = .next t ∧ summed.done = false ∧ t.unit.done = true ∧ summed.Inv) ∧
    (∃ t, step (alone fresh [⟨0, .request 0x7#64⟩]) = .next t ∧ fresh.done = false ∧ t.unit.done = true ∧ fresh.Inv) ∧
    (∃ t, step (alone (asking finished 0x1#64) [⟨0, .clock⟩]) = .next t ∧ finished.done = true ∧ t.unit.done = false ∧
      (asking finished 0x1#64).Inv) ∧
    (∃ t, step (alone finished [⟨0, .reset⟩]) = .next t ∧ finished.done = true ∧ t.unit.done = false ∧ finished.Inv) ∧
    (∃ t, step (alone finished [⟨0, .read⟩]) = .next t ∧ finished.done = true ∧ t.unit.done = true ∧ finished.Inv ∧
      ∀ d, ¬ (alone finished [⟨0, .read⟩]).asks 0 d) ∧
    (∃ t, step (alone finished [⟨0, .request 0x1#64⟩]) = .next t ∧ finished.done = true ∧ t.unit.done = true ∧ finished.Inv ∧
      (alone finished [⟨0, .request 0x1#64⟩]).asks 0 0x1#64) ∧
    ∃ t, step (alone finished [⟨0, .call hex7⟩]) = .next t ∧ finished.done = true ∧ t.unit.done = true ∧ finished.Inv ∧
      (alone finished [⟨0, .call hex7⟩]).asks 0 0x7#64 :=
  ⟨⟨_, rfl, rfl, rfl, summed_inv⟩, ⟨_, rfl, rfl, rfl, fresh_inv⟩, ⟨_, rfl, rfl, rfl, Encoder.inv_ports finished_inv _ _⟩,
    ⟨_, rfl, rfl, rfl, finished_inv⟩,
    ⟨_, rfl, rfl, rfl, finished_inv, by rintro d ⟨a, rest, h, ha⟩; simp [alone] at h; simp [HostAction.asks, ← h.1] at ha⟩,
    ⟨_, rfl, rfl, rfl, finished_inv, _, _, rfl, .inl rfl⟩,
    ⟨_, execEncodeHex_idle (t := hex7) (d := 0x7#64) (s := alone finished []) (by decide) rfl, rfl, rfl, finished_inv, _, _, rfl,
      .inr ⟨hex7, rfl, by decide⟩⟩⟩
theorem witness_ResetIsEnabledInEveryState :
    let s := pair fresh midway [⟨1, .reset⟩]
    s.host = ⟨1, .reset⟩ :: [] ∧ s.focusOn 1 = some s := by decide
theorem witness_ResetDiscardsTheRunningOperation :
    let s := alone midway (⟨0, .reset⟩ :: clocks 0 2 ++ [⟨0, .read⟩])
    s.unit.ph ≠ .idle ∧ s.unit.req = false ∧ s.host = ⟨s.before.length, .reset⟩ :: clocks s.before.length 2 ++ [⟨0, .read⟩] := by
  decide
theorem witness_ResetWithARequestPresentedTakesThatRequest :
    (∀ n ∈ [0, 1, 65, 66],
      let s := alone (asking midway 0x7#64) (⟨0, .reset⟩ :: clocks 0 n ++ [⟨0, .read⟩])
      s.unit.req = true ∧ s.unit.ph ≠ .idle ∧ n ≤ 66 ∧
        s.host = ⟨s.before.length, .reset⟩ :: clocks s.before.length n ++ [⟨0, .read⟩]) := by decide
theorem witness_HexValAndDigitHaveTheValuesOfTheirTables : 'g' ∉ alphabet22 ∧ '/' ∉ alphabet22 ∧ 'G' ∉ alphabet22 := by decide
theorem witness_ErrorCodesAreThoseOfTheList :
    ['g'].length ≠ 16 ∧ hexX.length = 16 ∧ (∃ c ∈ hexX, c ∉ alphabet22) ∧
    ∃ u, exec (.encodeHex hexX) (alone fresh []) = .next u ∧ u.reply = some (.error .invalidFormat) :=
  ⟨by decide, rfl, ⟨'x', by decide, by decide⟩, _, rfl, rfl⟩
theorem witness_ReadingShowsTheResultAndChangesNoEncoder :
    let s := pair fresh finished [⟨1, .read⟩]
    s.host = ⟨1, .read⟩ :: [] ∧ s.focusOn 1 = some s ∧ s.unit.done = true ∧ s.unit.Inv :=
  ⟨rfl, rfl, rfl, finished_inv⟩
theorem witness_DrivingThePortsChangesNoRegister :
    let s := pair fresh midway [⟨1, .drive true 0x1#64⟩]
    s.host = ⟨1, .drive true 0x1#64⟩ :: [] ∧ s.focusOn 1 = some s := by decide
theorem witness_EveryStepKeepsTheInvariant :
    (pair fresh midway []).Inv ∧ ∃ t, step (pair fresh midway []) = .next t := by
  refine ⟨fun u hu => ?_, ⟨_, rfl⟩⟩
  obtain rfl | rfl : u = fresh ∨ u = midway := by simpa [State.all, pair] using hu
  · exact fresh_inv
  · exact midway_inv
theorem witness_LoopInvariantOfEveryReachableState :
    ∃ s, Reachable s ∧ ∃ u ∈ s.all, u.ph = .accum :=
  ⟨_, .step _ _ (.step _ _ (.reset 0 [⟨0, .drive true 0x7#64⟩, ⟨0, .clock⟩]) rfl) rfl, _, List.mem_singleton.2 rfl, rfl⟩
theorem witness_ResultOfEveryReachableState :
    ∃ s, Reachable s ∧ ∃ u ∈ s.all, u.done = true :=
  ⟨_, .step _ _ (.reset 0 [⟨0, .request 0x7#64⟩]) rfl, _, List.mem_singleton.2 rfl, rfl⟩
theorem witness_SixtySixMicroStepsAreOneEncode :
    (alone (asking finished 0x7#64) []).unit.ph = .idle ∧ (alone (asking finished 0x7#64) []).unit.req = true := by decide
theorem witness_ScheduleOfAnOperationIsFixed :
    (asking fresh 0x7#64).ph = .idle ∧ (asking fresh 0x7#64).req = true ∧ (∀ n ∈ [0, 1, 64, 65, 66], n ≤ 66) ∧
    midway.ph ≠ .idle ∧ ∃ t, step (alone midway [⟨0, .clock⟩]) = .next t := ⟨rfl, rfl, by decide, by decide, _, rfl⟩
theorem witness_ScheduleDoesNotDependOnTheData :
    (unitOf .accum false 0x5#64 2#6 0xF4#8).control = (unitOf .accum false 0x8#64 2#6 0x00#8).control ∧
    (unitOf .accum false 0x5#64 2#6 0xF4#8).req = (unitOf .accum false 0x8#64 2#6 0x00#8).req := by decide
theorem witness_BusyEncoderEndsAfterItsMeasure : (alone lastTurn []).unit.ph ≠ .idle ∧ (alone summed []).unit.ph ≠ .idle := by decide
theorem witness_RunEndsOnceTheHostIsDone :
    (pair lastTurn midway []).host = [] ∧ ∀ u ∈ (pair lastTurn midway []).all, u.req = false := by decide
theorem witness_BackToBackOperationsAreIndependent : (alone fresh []).unit.ph = .idle := rfl
theorem witness_InterleavingDoesNotChangeAnyResult :
    let s := pair (asking fresh 0x3#64) (asking fresh 0x6#64) []
    let ks := List.replicate 66 0 ++ List.replicate 66 1
    (∀ k ∈ ks, k < s.all.length) ∧ s.all[0]? = some (asking fresh 0x3#64) ∧ (asking fresh 0x3#64).ph = .idle ∧
    (asking fresh 0x3#64).req = true ∧ ks.count 0 = 66 ∧ 2 ∉ ks ∧ (List.replicate 66 1 ++ List.replicate 66 0).Perm ks :=
  ⟨fun k hk => by
      obtain h | h := List.mem_append.1 hk <;> obtain ⟨-, rfl⟩ := List.mem_replicate.1 h <;> decide,
    rfl, rfl, rfl, by rw [List.count_append, List.count_replicate_self, List.count_replicate]; rfl,
    fun h => by obtain h | h := List.mem_append.1 h <;> simp at h, List.perm_append_comm⟩

end Sys2Proof.Tests
end

section
/-! PROOFS. The state after reset, the ports, and when the result-valid flag and a held result change (spec/10_state.md R27 to R29,
R34, R35; spec/70_reset_and_hazards.md R168). -/

namespace Sys2Proof.Machine

/-! ### The state after reset -/

theorem State.resetWith_all (more : Nat) : (State.resetWith more).all = (List.range (more + 1)).map Encoder.atReset := by
  rw [List.range_succ_eq_map, List.map_cons, List.map_map]
  rfl

theorem Encoder.eq_atReset_of_mem_resetWith {more : Nat} {u : Encoder} (h : u ∈ (State.resetWith more).all) :
    ∃ n, u = Encoder.atReset n := by
  rw [State.resetWith_all, List.mem_map] at h
  obtain ⟨n, -, e⟩ := h
  exact ⟨n, e.symm⟩

/-- Settles O37: the row after reset is `atReset` of 0, …, `more`. -/
theorem resetLeavesEveryEncoderIdle : Obligations.ResetLeavesEveryEncoderIdle := by
  refine ⟨rfl, fun more => ⟨by simp [State.resetWith_all], ⟨rfl, fun u hu => ?_⟩, fun u hu => ?_⟩⟩
  · obtain ⟨n, rfl⟩ := Encoder.eq_atReset_of_mem_resetWith hu
    rfl
  · obtain ⟨n, rfl⟩ := Encoder.eq_atReset_of_mem_resetWith hu
    exact ⟨rfl, rfl, rfl, rfl⟩

/-- Settles O40: an encoder after reset is idle with `DONE = 0`, and the host's actions are no part of an encoder. -/
theorem invariantHoldsAtReset : Obligations.InvariantHoldsAtReset := by
  intro more cmds u hu
  obtain ⟨n, rfl⟩ := Encoder.eq_atReset_of_mem_resetWith (more := more) hu
  exact Encoder.inv_of_idle rfl rfl

/-! ### The ports -/

theorem Encoder.eccOut_of_done {u : Encoder} (h : u.done = true) (draw : Byte) : u.eccOut draw = u.acc := if_pos h

/-- Settles O38: the step is `readPorts` of the addressed encoder, and the invariant says what `ACC` is while `DONE = 1`. -/
theorem readingShowsTheResultAndChangesNoEncoder : Obligations.ReadingShowsTheResultAndChangesNoEncoder := by
  intro s s' k rest hh hf
  obtain ⟨hall, -⟩ := State.focusOn_some hf
  have shows (hd : s'.unit.done = true) : s'.unit.eccOut (Config.freeEcc s'.draws) = s'.unit.acc :=
    Encoder.eccOut_of_done hd _
  refine ⟨(s'.setHost rest).readPorts, s'.unit.eccOut (Config.freeEcc s'.draws), step_action hh hf, ?_, rfl, rfl, rfl, shows, ?_⟩
  · rw [State.readPorts_all, State.setHost_all, hall]
  · intro hi hd
    obtain ⟨-, -, hacc⟩ := hi.result hd
    rw [shows hd, hacc]

theorem State.drivePorts_map_regs (s : State) (req : Bool) (din : DataWord) :
    (s.drivePorts req din).all.map Encoder.regs = s.all.map Encoder.regs := by
  simp [State.drivePorts, State.all, Encoder.regs]

/-- Settles O39: the step is `drivePorts` of the addressed encoder, which writes no register. -/
theorem drivingThePortsChangesNoRegister : Obligations.DrivingThePortsChangesNoRegister := by
  intro s s' k req din rest hh hf
  obtain ⟨hall, -⟩ := State.focusOn_some hf
  have hstep : step s = .next ((s'.setHost rest).drivePorts req din) := step_action hh hf
  refine ⟨hstep, fun t ht => ?_⟩
  obtain rfl := Host.Outcome.next.inj (hstep.symm.trans ht)
  rw [State.drivePorts_map_regs, State.setHost_all, hall]

/-! ### What a step does to the encoder of a given number -/

theorem State.focusOn_of_getElem {s : State} {k : Nat} {u : Encoder} (h : s.all[k]? = some u) :
    ∃ s', s.focusOn k = some s' ∧ s'.unit = u := by
  cases hf : s.focusOn k with
  | none => rw [List.getElem?_eq_none (State.focusOn_eq_none.1 hf)] at h; cases h
  | some s' =>
    obtain ⟨hall, hk, -⟩ := State.focusOn_some hf
    refine ⟨s', rfl, Option.some.inj ?_⟩
    rw [← s'.unit_getElem, hall, hk, h]

/-- What a step can do to encoder `k`: one of its own moves, or what the oldest host action, addressed to it, asks of it. -/
theorem step_getElem_cases {s t : State} {k : Nat} {u v : Encoder} (hs : step s = .next t) (hu : s.all[k]? = some u)
    (hv : t.all[k]? = some v) : u.Moves v ∨ ∃ a rest, s.host = ⟨k, a⟩ :: rest ∧ u.Serves s.draws a v := by
  obtain ⟨c, rest, -, -, e⟩ | ⟨t', w, b, a, e, hsall, htall, -, moved, -⟩ := step_cases s
  · rw [e] at hs; cases hs
  obtain rfl := Host.Outcome.next.inj (e.symm.trans hs)
  rw [hsall] at hu
  rw [htall] at hv
  by_cases hk : k = b.length
  · subst hk
    obtain rfl : w = u := by simpa using hu
    obtain rfl : t'.unit = v := by simpa using hv
    exact moved
  · have replaced : b ++ t'.unit :: a = (b ++ w :: a).set b.length t'.unit := by simp
    rw [replaced, List.getElem?_set_ne (Ne.symm hk), hu] at hv
    obtain rfl := Option.some.inj hv
    exact .inl .stays

/-- An action that asks an idle encoder for the ENCODE of `d` completes it. -/
theorem serve_of_asks {a : HostAction} {d : DataWord} {s : State} (rest : List HostCmd) (ha : a.asks d)
    (hp : s.unit.ph = .idle) :
    ∃ t, serve a rest s = .next t ∧ t.before = s.before ∧ t.unit = s.unit.encoded d := by
  obtain rfl | ⟨w, rfl, hw⟩ := ha
  · have served : serve (.request d) rest s = exec (.encode d) (s.setHost rest) :=
      runRaw_ok (r := .req64 d) rest rfl fun _ => hp
    exact ⟨_, served.trans (execEncode_idle (s := s.setHost rest) d hp), rfl, rfl⟩
  · have served : serve (.call w) rest s = exec (.encodeHex w) (s.setHost rest) :=
      runRaw_ok (r := .hex16 w) rest rfl fun _ => hp
    exact ⟨_, served.trans (execEncodeHex_idle (s := s.setHost rest) hw hp), rfl, rfl⟩

theorem step_of_asks {s : State} {k : Nat} {d : DataWord} {u : Encoder} (h : s.asks k d) (hu : s.all[k]? = some u)
    (hp : u.ph = .idle) : ∃ t, step s = .next t ∧ t.all[k]? = some (u.encoded d) := by
  obtain ⟨a, rest, hh, ha⟩ := h
  obtain ⟨s', hf, rfl⟩ := State.focusOn_of_getElem hu
  obtain ⟨-, hk, -⟩ := State.focusOn_some hf
  obtain ⟨t, e, hb, htu⟩ := serve_of_asks rest ha hp
  refine ⟨t, (step_action hh hf).trans e, ?_⟩
  rw [← htu, ← hk, ← hb, State.unit_getElem]

/-! ### When `DONE` and a held result change -/

theorem Encoder.Moves.done_rises {u v : Encoder} (m : u.Moves v) (h : u.done = false) (h' : v.done = true) :
    u.ph = .offs ∧ v = u.offsetApplied := by
  cases m with
  | stays => simp [h] at h'
  | loads _ => simp at h'
  | accumulates _ => simp [h] at h'
  | offsets hp => exact ⟨hp, rfl⟩

theorem Encoder.Moves.done_falls {u v : Encoder} (m : u.Moves v) (h : u.done = true) (h' : v.done = false) :
    u.ph = .idle ∧ u.req = true ∧ v = u.loaded := by
  cases m with
  | stays => simp [h] at h'
  | loads hp => exact ⟨hp.1, hp.2, rfl⟩
  | accumulates _ => simp [h] at h'
  | offsets _ => simp at h'

/-- A held result stays through the encoder's own moves: the invariant makes the encoder idle, and a LOAD would clear `DONE`. -/
theorem Encoder.Moves.eq_of_done {u v : Encoder} (hi : u.Inv) (m : u.Moves v) (h : u.done = true) (h' : v.done = true) :
    v = u := by
  obtain ⟨hidle, -, -⟩ := hi.result h
  cases m with
  | stays => rfl
  | loads _ => simp at h'
  | accumulates hp => simp [hidle] at hp
  | offsets hp => simp [hidle] at hp

theorem Encoder.Serves.done_rises {n : Nat} {a : HostAction} {u v : Encoder} (m : u.Serves n a v) (h : u.done = false)
    (h' : v.done = true) : u.ph = .idle ∧ ∃ d, a.asks d ∧ v = u.encoded d := by
  cases m with
  | drives _ _ => simp [h] at h'
  | encodes _ d ha hp => exact ⟨hp, d, ha, rfl⟩
  | resets => simp at h'

theorem Encoder.Serves.done_falls {n : Nat} {a : HostAction} {u v : Encoder} (m : u.Serves n a v) (h : u.done = true)
    (h' : v.done = false) : a = .reset := by
  cases m with
  | drives _ _ => simp [h] at h'
  | encodes _ _ _ _ => simp at h'
  | resets => rfl

/-- An action that asks for no ENCODE and leaves `DONE` up changes no register. -/
theorem Encoder.Serves.regs_of_not_asks {n : Nat} {a : HostAction} {u v : Encoder} (m : u.Serves n a v)
    (ha : ∀ d, ¬ a.asks d) (h' : v.done = true) : v.regs = u.regs := by
  cases m with
  | drives _ _ => rfl
  | encodes _ d hd _ => exact absurd hd (ha d)
  | resets => simp at h'

theorem done_rises_by_step {s t : State} {k : Nat} {u v : Encoder} (hs : step s = .next t) (hu : s.all[k]? = some u)
    (hv : t.all[k]? = some v) (h : u.done = false) (h' : v.done = true) :
    (u.ph = .offs ∧ v = u.offsetApplied) ∨ (u.ph = .idle ∧ ∃ d, s.asks k d ∧ v = u.encoded d) := by
  obtain m | ⟨a, rest, hh, m⟩ := step_getElem_cases hs hu hv
  · exact .inl (m.done_rises h h')
  · obtain ⟨hp, d, ha, e⟩ := m.done_rises h h'
    exact .inr ⟨hp, d, ⟨a, rest, hh, ha⟩, e⟩

theorem done_falls_by_step {s t : State} {k : Nat} {u v : Encoder} (hs : step s = .next t) (hu : s.all[k]? = some u)
    (hv : t.all[k]? = some v) (h : u.done = true) (h' : v.done = false) :
    (u.ph = .idle ∧ u.req = true ∧ v = u.loaded) ∨ ∃ rest, s.host = ⟨k, .reset⟩ :: rest := by
  obtain m | ⟨a, rest, hh, m⟩ := step_getElem_cases hs hu hv
  · exact .inl (m.done_falls h h')
  · obtain rfl := m.done_falls h h'
    exact .inr ⟨rest, hh⟩

theorem regs_of_step_not_asks {s t : State} {k : Nat} {u v : Encoder} (hs : step s = .next t)
    (hu : s.all[k]? = some u) (hv : t.all[k]? = some v) (hi : u.Inv) (h : u.done = true) (h' : v.done = true)
    (ha : ∀ d, ¬ s.asks k d) : v.regs = u.regs := by
  obtain m | ⟨a, rest, hh, m⟩ := step_getElem_cases hs hu hv
  · rw [m.eq_of_done hi h h']
  · exact m.regs_of_not_asks (fun d hd => ha d ⟨a, rest, hh, hd⟩) h'

theorem eq_encoded_of_step_asks {s t : State} {k : Nat} {d : DataWord} {u v : Encoder} (hs : step s = .next t)
    (hu : s.all[k]? = some u) (hv : t.all[k]? = some v) (hp : u.ph = .idle) (ha : s.asks k d) : v = u.encoded d := by
  obtain ⟨t', e, he⟩ := step_of_asks ha hu hp
  obtain rfl := Host.Outcome.next.inj (e.symm.trans hs)
  exact Option.some.inj (hv.symm.trans he)

/-- Settles O34: by what a step can do to encoder `k`; while the result is held the invariant makes the encoder idle, so an
ENCODE asked for is completed at once. -/
theorem doneAndTheResultChangeOnlyAsStated : Obligations.DoneAndTheResultChangeOnlyAsStated := by
  intro s t hs k u v hu hv hi
  refine ⟨fun h h' => ?_, fun h h' => ?_, fun h h' => ⟨fun d ha => ?_, regs_of_step_not_asks hs hu hv hi h h'⟩⟩
  · obtain ⟨hp, e⟩ | ⟨hp, d, ha, e⟩ := done_rises_by_step hs hu hv h h'
    · exact .inl ⟨hp, congrArg Encoder.regs e⟩
    · exact .inr ⟨hp, d, ha, congrArg Encoder.regs e⟩
  · obtain ⟨hp, hr, e⟩ | hreset := done_falls_by_step hs hu hv h h'
    · exact .inl ⟨hp, hr, congrArg Encoder.regs e⟩
    · exact .inr hreset
  · obtain ⟨hidle, -, -⟩ := hi.result h
    exact congrArg Encoder.regs (eq_encoded_of_step_asks hs hu hv hidle ha)

end Sys2Proof.Machine
end

section
/-! PROOFS. The contents of the parity ROM (spec/20_memory.md R43 to R47), and clock events of several instances in any order
(R54; spec/60_exceptions.md R151). -/

namespace Sys2Proof.Machine

/-! ### The contents of the ROM -/

/-- Settles O1: the model's ROM is admissible. -/
theorem romHoldsTheEntriesTheDocumentFixes : Obligations.RomHoldsTheEntriesTheDocumentFixes :=
  have h := parityRom_admissible
  ⟨h.entry0, h.entry1, h.entry2, h.relation⟩

/-- The relation of R46, solved for entry 42. -/
theorem RomAdmissible.entry42 {r : Index → Byte} (h : RomAdmissible r) :
    r 42#6 = 0x39#8 ^^^ r 4#6 ^^^ r 7#6 ^^^ r 8#6 ^^^ r 9#6 ^^^ r 32#6 ^^^ r 33#6 ^^^ r 36#6 := by
  have solved := congrArg (r 4#6 ^^^ r 7#6 ^^^ r 8#6 ^^^ r 9#6 ^^^ r 32#6 ^^^ r 33#6 ^^^ r 36#6 ^^^ ·) h.relation
  rw [← BitVec.xor_assoc, BitVec.xor_self, BitVec.zero_xor] at solved
  rw [solved]
  ac_rfl

/-- `romFrom` leaves an admissible table as it is. -/
theorem RomAdmissible.romFrom_eq {r : Index → Byte} (h : RomAdmissible r) : romFrom r = r := by
  funext i
  unfold romFrom
  split_ifs with h0 h1 h2 h42
  · rw [h0, h.entry0]
  · rw [h1, h.entry1]
  · rw [h2, h.entry2]
  · rw [h42, h.entry42]
  · rfl

/-- Settles O2: an admissible table is made from itself, and every table made is admissible. -/
theorem romRangesOverExactlyTheAdmissibleTables : Obligations.RomRangesOverExactlyTheAdmissibleTables := by
  refine fun r => ⟨fun h => ⟨r, h.romFrom_eq.symm⟩, ?_⟩
  rintro ⟨f, rfl⟩
  exact romFrom_admissible f

/-! ### The 66 clock events of one operation -/

theorem Encoder.clocked_idle {u : Encoder} (h : u.ph = .idle) (hr : u.req = true) : u.clocked = u.loaded := by
  simp [Encoder.clocked, h, hr]

theorem Encoder.clocked_accum {u : Encoder} (h : u.ph = .accum) : u.clocked = u.accumulated := by
  simp [Encoder.clocked, h]

theorem Encoder.clocked_offs {u : Encoder} (h : u.ph = .offs) : u.clocked = u.offsetApplied := by
  simp [Encoder.clocked, h]

/-- The instance that took the word on `din` and then ran the iterations `0, …, n-1` of the loop, while the loop is not over. -/
def Encoder.inLoop (u : Encoder) (n : Nat) : Encoder :=
  { u.loaded with idx := BitVec.ofNat 6 n, acc := linUpTo u.din n }

/-- The instance whose loop is complete: the whole sum, and the index back at 0 (R101). -/
def Encoder.loopDone (u : Encoder) : Encoder := { u.loaded with ph := .offs, acc := lin u.din }

theorem Encoder.inLoop_accumulated (u : Encoder) {n : Nat} (h : n < 63) : (u.inLoop n).accumulated = u.inLoop (n + 1) := by
  have hidx : BitVec.ofNat 6 n ≠ 63#6 := by bv_omega
  ext1 <;> simp [Encoder.inLoop, hidx, linUpTo, BitVec.ofNat_add]

theorem Encoder.inLoop_accumulated_last (u : Encoder) : (u.inLoop 63).accumulated = u.loopDone := by
  ext1 <;> simp [Encoder.inLoop, Encoder.loopDone, lin, linUpTo]

theorem Encoder.loopDone_offsetApplied (u : Encoder) : u.loopDone.offsetApplied = u.encoded u.din := rfl

theorem Encoder.clocked_iterate_loaded (u : Encoder) {n : Nat} (h : n ≤ 63) : Encoder.clocked^[n] u.loaded = u.inLoop n := by
  induction n with
  | zero => rfl
  | succ n ih =>
    rw [Function.iterate_succ_apply', ih (Nat.le_of_succ_le h), Encoder.clocked_accum rfl, u.inLoop_accumulated h]

/-- LOAD, 64 times ACCUM and OFFS are the ENCODE of the word on `din` (R104, R107). -/
theorem Encoder.clocked_iterate_encoded {u : Encoder} (h : u.ph = .idle) (hr : u.req = true) :
    Encoder.clocked^[66] u = u.encoded u.din := by
  have load : Encoder.clocked^[66] u = Encoder.clocked^[65] u.loaded := by
    rw [Function.iterate_succ_apply, Encoder.clocked_idle h hr]
  rw [load, Function.iterate_succ_apply', Function.iterate_succ_apply', u.clocked_iterate_loaded le_rfl,
    Encoder.clocked_accum (u := u.inLoop 63) rfl, u.inLoop_accumulated_last, Encoder.clocked_offs (u := u.loopDone) rfl,
    u.loopDone_offsetApplied]

/-! ### Clock events of several instances -/

/-- A step on a clock event of an existing instance clocks that instance and no other. -/
theorem step_clock_of_lt {s : State} {k : Nat} {rest : List HostCmd} (hh : s.host = ⟨k, .clock⟩ :: rest)
    (hk : k < s.all.length) : ∃ t, step s = .next t ∧ t.host = rest ∧ t.all = s.all.modify k Encoder.clocked := by
  obtain ⟨s', hf, -⟩ := State.focusOn_of_getElem (List.getElem?_eq_getElem hk)
  obtain ⟨hall, rfl, -⟩ := State.focusOn_some hf
  refine ⟨_, (step_action hh hf).trans (clockUnit_eq _), rfl, ?_⟩
  rw [← hall]
  simp [State.all, List.modify_eq_set_getElem?]

/-- Clock events of existing instances, in any order: every instance is clocked as often as it has an event in the list. -/
theorem run_clocks_of_lt (ks : List Nat) (s : State) (h : ∀ k ∈ ks, k < s.all.length)
    (hh : s.host = ks.map fun k => ⟨k, .clock⟩) :
    ∃ t, run ks.length s = .next t ∧ ∀ k, t.all[k]? = s.all[k]?.map Encoder.clocked^[ks.count k] := by
  induction ks generalizing s with
  | nil => exact ⟨s, rfl, by simp⟩
  | cons j ks ih =>
    obtain ⟨s', hs, hhost, hall⟩ := step_clock_of_lt hh (h j List.mem_cons_self)
    have hlt : ∀ k ∈ ks, k < s'.all.length := fun k hk => by
      rw [hall, List.length_modify]
      exact h k (List.mem_cons_of_mem j hk)
    obtain ⟨t, ht, htall⟩ := ih s' hlt hhost
    refine ⟨t, (run_succ _ hs).trans ht, fun k => ?_⟩
    rw [htall, hall, List.getElem?_modify, List.count_cons]
    by_cases hjk : j = k
    · simp [hjk, Function.iterate_succ]
    · simp [hjk]

/-- Settles O50: the instances at the end depend only on how many events each one has, and 66 events are one ENCODE. -/
theorem interleavingDoesNotChangeAnyResult : Obligations.InterleavingDoesNotChangeAnyResult := by
  intro s ks hks
  obtain ⟨t, ht, hall⟩ := run_clocks_of_lt ks { s with host := ks.map fun k => ⟨k, .clock⟩ } hks rfl
  replace hall : ∀ k, t.all[k]? = s.all[k]?.map Encoder.clocked^[ks.count k] := hall
  refine ⟨t, ht, fun k u hu hidle hreq hcount => ?_, fun k hk => ?_, fun ks' hperm => ?_⟩
  · rw [hall, hu, hcount, Option.map_some, Encoder.clocked_iterate_encoded hidle hreq]
  · rw [hall, List.count_eq_zero_of_not_mem hk]
    exact Option.map_id_apply
  · obtain ⟨t', ht', hall'⟩ := run_clocks_of_lt ks' { s with host := ks'.map fun k => ⟨k, .clock⟩ }
      (fun k hk => hks k (hperm.mem_iff.1 hk)) rfl
    refine ⟨t', ht', List.ext_getElem? fun k => ?_⟩
    rw [hall, hall', hperm.count_eq]
    rfl

end Sys2Proof.Machine
end

section
/-! PROOFS. The decoder and the encoder, the sequencer word, the text form of a data word, and that a step runs the operation
decoded (spec/30_encoding.md R60 to R68; spec/42_host_text_interface.md R121 to R125). -/

namespace Sys2Proof.Machine

/-! ### Decoding and encoding -/

theorem decode_encode (i : Instr) : decode (encode i) = .ok i := by
  cases i with
  | encode d => exact Laws.RoundTrip.encode d
  | encodeHex t => exact Laws.RoundTrip.encodeHex t
  | load x => exact Laws.RoundTrip.load x
  | accum k => exact Laws.RoundTrip.accum k
  | offs x => exact Laws.RoundTrip.offs x

theorem decode_unused (x : Index) : decode (.seq8 (0b11#2 ++ x)) = .error .unusedPhase := by
  simp [decode, decodeSeq_append]

theorem phaseBits_cases (p : BitVec 2) : p = 0b00#2 ∨ p = 0b01#2 ∨ p = 0b10#2 ∨ p = 0b11#2 := by
  revert p; decide

/-- Every raw form is that of an operation, or a sequencer word with the unused phase bits. -/
theorem raw_cases (r : Raw) : (∃ i, r = encode i) ∨ ∃ x : Index, r = .seq8 (0b11#2 ++ x) := by
  cases r with
  | req64 w => exact .inl ⟨.encode w, rfl⟩
  | hex16 cs => exact .inl ⟨.encodeHex cs, rfl⟩
  | seq8 q =>
    obtain ⟨p, x, rfl⟩ : ∃ (p : BitVec 2) (x : Index), q = (p ++ x : BitVec 8) := ⟨_, _, seq_split q⟩
    obtain rfl | rfl | rfl | rfl := phaseBits_cases p
    · exact .inl ⟨.load x, rfl⟩
    · exact .inl ⟨.accum x, rfl⟩
    · exact .inl ⟨.offs x, rfl⟩
    · exact .inr ⟨x, rfl⟩

theorem encode_of_decode {r : Raw} {i : Instr} (h : decode r = .ok i) : encode i = r := by
  obtain ⟨j, rfl⟩ | ⟨x, rfl⟩ := raw_cases r
  · rw [decode_encode] at h
    rw [Except.ok.inj h]
  · rw [decode_unused] at h
    cases h

theorem decode_eq_unused_iff (r : Raw) : decode r = .error .unusedPhase ↔ ∃ x : Index, r = .seq8 (0b11#2 ++ x) := by
  refine ⟨fun h => ?_, fun ⟨x, e⟩ => e ▸ decode_unused x⟩
  obtain ⟨j, rfl⟩ | unused := raw_cases r
  · rw [decode_encode] at h
    cases h
  · exact unused

/-- Settles O26: `encode` reaches every raw form but the sequencer words `11xxxxxx`, and `decode` inverts it. -/
theorem decodeAndEncodeAgree : Obligations.DecodeAndEncodeAgree :=
  ⟨decode_encode, fun _ _ => encode_of_decode, decode_eq_unused_iff⟩

/-- Settles O27: each word is decoded by evaluation. -/
theorem wordsOfTheTableDecode : Obligations.WordsOfTheTableDecode :=
  ⟨rfl, rfl, rfl, rfl, rfl, rfl⟩

/-! ### The sequencer word -/

@[simp] theorem Encoder.seqWord_index (u : Encoder) : u.seqWord.extractLsb' 0 6 = u.idx :=
  (seq_fields u.ph.code u.idx).1

@[simp] theorem Encoder.seqWord_phase (u : Encoder) : u.seqWord.extractLsb' 6 2 = u.ph.code :=
  (seq_fields u.ph.code u.idx).2.1

theorem Phase.code_injective : Function.Injective Phase.code := by
  intro p q h
  have same := phaseOfCode_code q
  rw [← h, phaseOfCode_code] at same
  exact Option.some.inj same

theorem Phase.code_ne_unused (p : Phase) : p.code ≠ 0b11#2 := by cases p <;> decide

theorem Encoder.select_idle {u : Encoder} (h : u.ph = .idle) : u.select = if u.req then some (.load u.idx) else none := by
  simp [Encoder.select, h]

theorem Encoder.select_accum {u : Encoder} (h : u.ph = .accum) : u.select = some (.accum u.idx) := by
  simp [Encoder.select, h]

theorem Encoder.select_offs {u : Encoder} (h : u.ph = .offs) : u.select = some (.offs u.idx) := by
  simp [Encoder.select, h]

/-- Settles O16: the phase bits determine the phase, and the index bits are `IDX`. -/
theorem sequencerWordSelectsTheMicroStep : Obligations.SequencerWordSelectsTheMicroStep := by
  intro u
  rw [u.seqWord_phase, u.seqWord_index]
  refine ⟨fun h hr => ?_, fun h hr => ?_, fun h => ?_, fun h => ?_, u.ph.code_ne_unused, fun _ => decode_seqWord,
    fun hi hp => ?_⟩
  · rw [Encoder.select_idle (Phase.code_injective (a₂ := .idle) h), if_pos hr]
  · simp [Encoder.select_idle (Phase.code_injective (a₂ := .idle) h), hr]
  · exact Encoder.select_accum (Phase.code_injective (a₂ := .accum) h)
  · exact Encoder.select_offs (Phase.code_injective (a₂ := .offs) h)
  · obtain ⟨hidx, -, -⟩ := hi.summed hp
    rw [Encoder.seqWord, hp, hidx]
    rfl

/-! ### Letter case -/

theorem toNat_of_isUpper {c : Char} (h : c.isUpper = true) : 65 ≤ c.toNat ∧ c.toNat ≤ 90 := by
  simpa [Char.isUpper, UInt32.le_iff_toNat_le] using h

theorem hexVal_toLower_of_code_lt : ∀ n < 26, hexVal (Char.ofNat (65 + n)).toLower = hexVal (Char.ofNat (65 + n)) := by
  decide

theorem hexVal_toLower (c : Char) : hexVal c.toLower = hexVal c := by
  by_cases h : c.isUpper = true
  · obtain ⟨low, high⟩ := toNat_of_isUpper h
    have upper := hexVal_toLower_of_code_lt (c.toNat - 65) (by omega)
    rwa [Nat.add_sub_cancel' low, Char.ofNat_toNat] at upper
  · rw [Char.toLower_eq_of_not_isUpper h]

theorem inAlphabet_toLower (c : Char) : inAlphabet c.toLower = inAlphabet c := by rw [inAlphabet, hexVal_toLower, inAlphabet]

theorem digitVal_toLower (c : Char) : digitVal c.toLower = digitVal c := by rw [digitVal, hexVal_toLower, digitVal]

theorem hexSum_map_toLower (t : Text) : hexSum (t.map Char.toLower) = hexSum t := by
  simp [hexSum, List.foldl_map, digitVal_toLower]

theorem parseHex16_map_toLower (t : Text) : parseHex16 (t.map Char.toLower) = parseHex16 t := by
  have same : inAlphabet ∘ Char.toLower = inAlphabet := funext inAlphabet_toLower
  simp [parseHex16, List.all_map, same, hexSum_map_toLower]

theorem parseHex16_eq_of_lower_eq {t t' : Text} (h : t.map Char.toLower = t'.map Char.toLower) :
    parseHex16 t = parseHex16 t' := by
  rw [← parseHex16_map_toLower t, h, parseHex16_map_toLower]

/-- ENCODE_HEX depends on its string only through the parser. -/
theorem exec_encodeHex_congr {t t' : Text} (h : parseHex16 t = parseHex16 t') (s : State) :
    exec (.encodeHex t) s = exec (.encodeHex t') s := by
  simp only [exec, execEncodeHex, h]

/-- Settles O19: the value of a character is that of its lowercase form. -/
theorem letterCaseDoesNotMatter : Obligations.LetterCaseDoesNotMatter := fun _ _ h =>
  have parsed := parseHex16_eq_of_lower_eq h
  ⟨parsed, exec_encodeHex_congr parsed⟩

/-! ### The text form of a data word -/

/-- The first `n` digits of a word are worth its `4 * n` most significant bits. -/
theorem hexSum_digits (d : DataWord) {n : Nat} (h : n ≤ 16) :
    hexSum ((List.range n).map fun k => hexDigit (d.extractLsb' (60 - 4 * k) 4)) = d.toNat / 2 ^ (64 - 4 * n) := by
  induction n with
  | zero => simpa [hexSum] using (Nat.div_eq_of_lt d.isLt).symm
  | succ n ih =>
    have next : 64 - 4 * n = 60 - 4 * n + 4 := by omega
    have here : 64 - 4 * (n + 1) = 60 - 4 * n := by omega
    rw [List.range_succ, List.map_append, List.map_singleton, hexSum_append, ih (by omega), digitVal_hexDigit,
      BitVec.extractLsb'_toNat, Nat.shiftRight_eq_div_pow, next, here, Nat.pow_add, ← Nat.div_div_eq_div_mul]
    exact Nat.div_add_mod _ 16

theorem hexSum_hexText (d : DataWord) : hexSum (hexText d) = d.toNat :=
  (hexSum_digits d le_rfl).trans (Nat.div_one _)

theorem parseHex16_hexText (d : DataWord) : parseHex16 (hexText d) = .ok d := by
  obtain ⟨h, -⟩ | ⟨-, h, -⟩ | ⟨-, -, parsed⟩ := parseHex16_cases (hexText d)
  · exact absurd (hexText_length d) h
  · rw [hexText_inAlphabet] at h
    cases h
  · rw [parsed, hexSum_hexText, BitVec.ofNat_toNat, BitVec.setWidth_eq]

theorem map_toUpper_map_toLower (t : Text) : (t.map Char.toUpper).map Char.toLower = t.map Char.toLower := by
  simp [Char.toLower_toUpper_eq_toLower]

/-- Settles O18: the digits add up to the word, and letter case does not matter. -/
theorem everyWordHasATextForm : Obligations.EveryWordHasATextForm := fun d =>
  ⟨parseHex16_hexText d, (parseHex16_eq_of_lower_eq (map_toUpper_map_toLower _)).trans (parseHex16_hexText d)⟩

/-- Settles O24: both say that the string has 16 characters, all of the alphabet. -/
theorem textIsWellFormedIffItParses : Obligations.TextIsWellFormedIffItParses := by
  intro t
  rw [parseHex16_ok_iff, Instr.wellFormed, Bool.and_eq_true, lengthOk, beq_iff_eq, alphabetOk]

/-! ### The operation that a step runs -/

/-- An operation that waits for an idle encoder is a valid form. -/
theorem wellFormed_of_needsIdle {i : Instr} (h : needsIdle i = true) : i.wellFormed = true := by
  cases i with
  | encode d => rfl
  | encodeHex t =>
    cases hp : parseHex16 t with
    | ok d => exact (textIsWellFormedIffItParses t).2 ⟨d, hp⟩
    | error e => simp [needsIdle, hp] at h
  | load x => rfl
  | accum k => rfl
  | offs x => rfl

/-- Where the word decodes to a micro-step that is enabled, the sequencer selects it. -/
theorem select_of_decode_seqWord {u : Encoder} {i : Instr} (h : decode (.seq8 u.seqWord) = .ok i)
    (hr : u.ph = .idle → u.req = true) : u.select = some i := by
  have selected {j : Instr} (e : u.select = some j) : u.select = some i := by
    rw [e, Except.ok.inj ((decode_seqWord e).symm.trans h)]
  obtain ⟨hp, hreq, -⟩ | ⟨-, -, e⟩ | ⟨-, e⟩ | ⟨-, e⟩ := u.select_cases
  · rw [hr hp] at hreq
    cases hreq
  · exact selected e
  · exact selected e
  · exact selected e

theorem clockUnit_of_decode {s : State} {i : Instr} (h : decode (.seq8 s.unit.seqWord) = .ok i)
    (hr : s.unit.ph = .idle → s.unit.req = true) : clockUnit s = exec i s := by
  rw [clockUnit, select_of_decode_seqWord h hr]

theorem step_of_host_nil {s : State} (h : s.host = []) : step s = clockUnit s.focusNext := by
  rw [step, h]

/-- Settles O28: what each kind of action hands to `runRaw` or `clockUnit`. -/
theorem stepRunsTheDecodedOperation : Obligations.StepRunsTheDecodedOperation := by
  intro s s' k rest hf
  obtain ⟨hall, hk, -⟩ := State.focusOn_some hf
  refine ⟨hall, hk, fun d i hh hd hp => ?_, fun t i hh hd hp => ?_, fun i hh hd hr => ?_, fun hh hp hr => ?_,
    fun i hh hd hr => ?_, fun hh hp hr => ⟨?_, s.focusNext_spec.1⟩⟩
  · exact (step_action hh hf).trans (runRaw_ok rest hd fun _ => hp)
  · exact (step_action hh hf).trans (runRaw_ok rest hd fun hn => hp (wellFormed_of_needsIdle hn))
  · exact (step_action hh hf).trans (clockUnit_of_decode (s := s'.setHost rest) hd hr)
  · exact (step_action hh hf).trans (clockUnit_idle (s := s'.setHost rest) hp hr)
  · exact (step_of_host_nil hh).trans (clockUnit_of_decode hd hr)
  · exact (step_of_host_nil hh).trans (clockUnit_idle hp hr)

theorem decodeTableWord_eq_some {nbits w : Nat} {i : Instr} (h : decodeTableWord nbits w = some i) :
    ∃ r, rawOfTable nbits w = some r ∧ decode r = .ok i := by
  unfold decodeTableWord at h
  split at h
  · cases h
  · next r hr =>
    split at h
    · next j hj => exact ⟨r, hr, hj.trans (congrArg Except.ok (Option.some.inj h))⟩
    · cases h

theorem State.withFetchWord_eq {nbits w : Nat} {r : Raw} (s : State) (h : rawOfTable nbits w = some r) :
    s.withFetchWord nbits w = s.placeRaw r := by
  rw [State.withFetchWord, h]

/-- Settles O29: the word's raw form is placed, and the next step runs what it decodes to. -/
theorem placedOperationIsTheNextOneRun : Obligations.PlacedOperationIsTheNextOneRun := by
  intro s nbits w i h
  obtain ⟨r, hr, hd⟩ := decodeTableWord_eq_some h
  rw [s.withFetchWord_eq hr]
  exact step_placeRaw s hd

end Sys2Proof.Machine
end

section
/-! PROOFS. The function that ENCODE computes, ENCODE on an idle encoder, and what every operation answers (spec/40_encode.md
R80 to R90). -/

namespace Sys2Proof.Machine

/-! ### The exclusive OR of a list -/

@[simp] theorem xorAll_nil : xorAll [] = 0x00#8 := rfl

@[simp] theorem xorAll_cons (b : Byte) (l : List Byte) : xorAll (b :: l) = b ^^^ xorAll l := by
  rw [xorAll, List.foldl_cons, BitVec.xor_comm, List.foldl_assoc, xorAll]

theorem xorAll_append (l l' : List Byte) : xorAll (l ++ l') = xorAll l ^^^ xorAll l' := by
  induction l with
  | nil => simp
  | cons b l ih => rw [List.cons_append, xorAll_cons, xorAll_cons, ih, BitVec.xor_assoc]

theorem xorAll_perm {l l' : List Byte} (h : l.Perm l') : xorAll l = xorAll l' := h.foldl_eq _

theorem xorAll_flatten (ls : List (List Byte)) : xorAll ls.flatten = xorAll (ls.map xorAll) := by
  induction ls with
  | nil => rfl
  | cons l ls ih => rw [List.flatten_cons, xorAll_append, ih, List.map_cons, xorAll_cons]

/-- A bit of a sum is the sum of that bit of the summands. -/
theorem getLsbD_xorAll (l : List Byte) (j : Nat) :
    (xorAll l).getLsbD j = (l.map (BitVec.getLsbD · j)).foldl (· ^^ ·) false := by
  rw [List.foldl_map, ← BitVec.getLsbD_zero (w := 8) (i := j)]
  exact (List.foldl_hom (BitVec.getLsbD · j) fun _ _ => BitVec.getLsbD_xor.symm).symm

/-! ### The accumulation loop as a sum of terms -/

theorem foldl_accStep (d : DataWord) (l : List Index) (acc : Byte) :
    l.foldl (accStep d) acc = acc ^^^ xorAll (l.map (term d)) := by
  induction l generalizing acc with
  | nil => simp
  | cons i l ih => rw [List.foldl_cons, ih, accStep_eq_xor_term, List.map_cons, xorAll_cons, BitVec.xor_assoc]

theorem linUpTo_eq_foldl (d : DataWord) (k : Nat) :
    linUpTo d k = ((List.range k).map (BitVec.ofNat 6)).foldl (accStep d) 0x00#8 := by
  induction k with
  | zero => rfl
  | succ k ih => rw [List.range_succ, List.map_append, List.foldl_append, ← ih]; rfl

theorem linUpTo_eq_xorAll (d : DataWord) (k : Nat) :
    linUpTo d k = xorAll (((List.range k).map (BitVec.ofNat 6)).map (term d)) := by
  rw [linUpTo_eq_foldl, foldl_accStep, BitVec.zero_xor]

theorem dataBit_ofNat (d : DataWord) {i : Nat} (h : i < 64) : dataBit d (BitVec.ofNat 6 i) = d.getLsbD i := by
  rw [dataBit, BitVec.toNat_ofNat, Nat.mod_eq_of_lt h]

theorem accStep_ofNat (d : DataWord) (acc : Byte) {i : Nat} (h : i < 64) :
    accStep d acc (BitVec.ofNat 6 i) = if d.getLsbD i then acc ^^^ parityRom (BitVec.ofNat 6 i) else acc := by
  rw [accStep, dataBit_ofNat d h, romRead]

theorem term_ofNat (d : DataWord) {i : Nat} (h : i < 64) :
    term d (BitVec.ofNat 6 i) = if d.getLsbD i then parityRom (BitVec.ofNat 6 i) else 0x00#8 := by
  rw [term, dataBit_ofNat d h, romRead]

theorem getLsbD_term (d : DataWord) (i : Index) (j : Nat) :
    (term d i).getLsbD j = (dataBit d i && (parityRom i).getLsbD j) := by
  unfold term
  cases dataBit d i <;> simp [romRead]

/-- After `k` iterations the accumulator holds the entries that the bits below `k` select (R105). -/
theorem linUpTo_eq_xorAll_selected (d : DataWord) {k : Nat} (h : k ≤ 64) :
    linUpTo d k =
      xorAll (((List.range k).filter fun i => d.getLsbD i).map fun i => parityRom (BitVec.ofNat 6 i)) := by
  induction k with
  | zero => rfl
  | succ k ih =>
    rw [linUpTo_succ, ih (Nat.le_of_succ_le h), List.range_succ, List.filter_append, List.map_append, xorAll_append,
      term_ofNat d h]
    cases hk : d.getLsbD k <;> simp [hk]

theorem getLsbD_lin (d : DataWord) (j : Nat) :
    (lin d).getLsbD j =
      ((List.range 64).map fun i => d.getLsbD i && (parityRom (BitVec.ofNat 6 i)).getLsbD j).foldl (· ^^ ·) false := by
  rw [lin, linUpTo_eq_xorAll, getLsbD_xorAll, List.map_map, List.map_map]
  congr 1
  refine List.map_congr_left fun i hi => ?_
  rw [← dataBit_ofNat d (List.mem_range.1 hi)]
  exact getLsbD_term ..

/-- Settles O3: the loop's accumulator is the sum of the terms, and each bit of a sum is the sum of the bits. -/
theorem linIsTheLinearCombinationOfTheSelectedEntries : Obligations.LinIsTheLinearCombinationOfTheSelectedEntries :=
  ⟨fun d => linUpTo_eq_xorAll_selected d le_rfl, lin_zero, fun d j _ => getLsbD_lin d j, lin_xor⟩

/-- Settles O4: bit `j` of `Lin(d)`, with bit `j` of the offset added. -/
theorem eachEccBitIsAParityTree : Obligations.EachEccBitIsAParityTree := by
  intro d j hj
  have inverted : ∀ j < 8, (0x22#8).getLsbD j = true ↔ j = 1 ∨ j = 5 := by decide
  refine ⟨?_, inverted j hj⟩
  rw [eccOf, BitVec.getLsbD_xor, getLsbD_lin, Bool.xor_comm, offset]

/-! ### Affine-linearity -/

theorem lin_foldl_xor (ws : List DataWord) : lin (ws.foldl (· ^^^ ·) 0#64) = xorAll (ws.map lin) := by
  rw [xorAll, List.foldl_map, ← lin_zero]
  exact (List.foldl_hom lin fun a b => (lin_xor a b).symm).symm

/-- The offsets of the summands cancel in pairs. -/
theorem xorAll_map_eccOf (ws : List DataWord) :
    xorAll (ws.map eccOf) = xorAll (ws.map lin) ^^^ if ws.length % 2 = 1 then offset else 0x00#8 := by
  induction ws with
  | nil => rfl
  | cons w ws ih =>
    rw [List.map_cons, xorAll_cons, ih, List.map_cons, xorAll_cons, List.length_cons, eccOf, xor_interchange]
    congr 1
    obtain even | odd := Nat.mod_two_eq_zero_or_one ws.length
    · simp [even, Nat.succ_mod_two_eq_one_iff.2 even]
    · simp [odd, Nat.succ_mod_two_eq_zero_iff.2 odd]

/-- Settles O5: the linear parts add up, and the offsets cancel in pairs. -/
theorem encodeIsAffine : Obligations.EncodeIsAffine := by
  refine ⟨eccOf_xor, fun ws => ?_⟩
  rw [xorAll_map_eccOf, eccOf, lin_foldl_xor]
  split
  · rfl
  · rw [BitVec.xor_assoc, ← offset, BitVec.xor_self]

theorem eccOf_one_shift (i : Index) : eccOf (1#64 <<< i.toNat) = parityRom i ^^^ offset := by
  rw [eccOf, lin_one_shift]

theorem eccOf_flip (d : DataWord) (i : Index) : eccOf (d ^^^ (1#64 <<< i.toNat)) = eccOf d ^^^ parityRom i := by
  rw [eccOf, lin_xor, lin_one_shift, eccOf]
  ac_rfl

/-- Settles O7: by linearity a flipped bit adds its entry, and adding it changes nothing just when it is 0. -/
theorem flippingADataBitAddsItsRomEntry : Obligations.FlippingADataBitAddsItsRomEntry := by
  refine fun i => ⟨eccOf_one_shift i, ?_, fun d => ⟨eccOf_flip d i, ?_⟩⟩
  · rw [eccOf_one_shift, BitVec.xor_assoc, ← offset, BitVec.xor_self, BitVec.xor_zero]
  · rw [eccOf_flip]
    exact xor_left_eq_self_iff

/-! ### Order and grouping -/

theorem xorAll_terms_of_perm {l : List Index} (d : DataWord) (h : l.Perm ((List.range 64).map (BitVec.ofNat 6))) :
    xorAll (l.map (term d)) = lin d := by
  rw [xorAll_perm (h.map _), lin, linUpTo_eq_xorAll]

/-- Settles O8: a visit of indices adds the sum of their terms, and a sum does not depend on order or grouping. -/
theorem accumulationOrderDoesNotMatter : Obligations.AccumulationOrderDoesNotMatter := by
  refine fun d => ⟨fun l h => ⟨?_, ?_⟩, fun groups h => ?_⟩
  · rw [foldl_accStep, xorAll_terms_of_perm d h, BitVec.zero_xor, eccOf]
  · rw [foldl_accStep, xorAll_terms_of_perm d h, BitVec.xor_comm, eccOf]
  · have group : (fun l => List.foldl (accStep d) 0x00#8 l) = xorAll ∘ List.map (term d) :=
      funext fun l => by simp [foldl_accStep]
    rw [group, ← List.map_map, ← xorAll_flatten, ← List.map_flatten, xorAll_terms_of_perm d h]

/-! ### ENCODE and ENCODE_HEX on an idle encoder -/

theorem exec_encode_idle {s : State} (d : DataWord) (h : s.unit.ph = .idle) :
    exec (.encode d) s = .next (s.setUnit (s.unit.encoded d)) := execEncode_idle d h

theorem exec_encodeHex_idle {t : Text} {d : DataWord} {s : State} (ht : parseHex16 t = .ok d) (h : s.unit.ph = .idle) :
    exec (.encodeHex t) s = .next ((s.setUnit (s.unit.encoded d)).answer (.text (formatHex2 (eccOf d)))) :=
  execEncodeHex_idle ht h

/-- The document's loop (R80). -/
theorem lin_eq_loop (d : DataWord) :
    lin d = (List.range 64).foldl
      (fun acc i => if d.getLsbD i then acc ^^^ parityRom (BitVec.ofNat 6 i) else acc) 0x00#8 := by
  rw [lin, linUpTo_eq_foldl, List.foldl_map]
  exact List.foldl_ext _ _ _ fun acc i hi => accStep_ofNat d acc (List.mem_range.1 hi)

/-- Settles O9: ENCODE leaves the registers `encoded d`, and the accumulator there is the document's loop with the offset. -/
theorem encodeCompletesWithTheValueOfTheLoop : Obligations.EncodeCompletesWithTheValueOfTheLoop := by
  intro d s h
  have completes := exec_encode_idle d h
  rw [← lin_eq_loop]
  exact ⟨completes, completes, by decide⟩

/-- Settles O6: the empty sum is 0, and sixteen zeros are parsed as the zero word. -/
theorem zeroWordEncodesToTheOffset : Obligations.ZeroWordEncodesToTheOffset := by
  have printed : formatHex2 (eccOf 0#64) = ['2', '2'] := by rw [eccOf_zero]; rfl
  have parsed : parseHex16 (List.replicate 16 '0') = .ok 0#64 := by decide
  refine ⟨eccOf_zero, rfl, printed, fun s h => ⟨_, exec_encodeHex_idle parsed h, ?_⟩⟩
  rw [State.answer_reply, printed]

/-- Settles O11: the registers after ENCODE and after LOAD are made of the operand and the levels on the ports alone. -/
theorem hiddenRegistersOfAnIdleEncoderHaveNoInfluence : Obligations.HiddenRegistersOfAnIdleEncoderHaveNoInfluence := by
  intro s acc dreg idx done w t x h s'
  have h' : s'.unit.ph = .idle := h
  refine ⟨?_, fun ht => ?_, fun hr => ?_⟩
  · rw [exec_encode_idle w h, exec_encode_idle w h']
    rfl
  · rw [exec_encodeHex_idle ht h, exec_encodeHex_idle ht h']
    rfl
  · exact (execLoad_enabled x h' hr).trans (execLoad_enabled x h hr).symm

/-! ### What every operation answers -/

/-- An operation that is taken where it is enabled and otherwise changes nothing writes at most the encoder. -/
theorem exists_setUnit_of_ite (p : Prop) [Decidable p] (s : State) (u : Encoder) :
    ∃ v, (if p then .next (s.setUnit u) else .next s : Host.Outcome State Fault Refusal) = .next (s.setUnit v) := by
  split
  · exact ⟨u, rfl⟩
  · exact ⟨s.unit, rfl⟩

theorem exec_eq_setUnit {i : Instr} (hi : ∀ t : Text, i ≠ .encodeHex t) (s : State) :
    ∃ u, exec i s = .next (s.setUnit u) := by
  cases i with
  | encode d => exact exists_setUnit_of_ite ..
  | encodeHex t => exact absurd rfl (hi t)
  | load x => exact exists_setUnit_of_ite ..
  | accum k => exact exists_setUnit_of_ite ..
  | offs x => exact exists_setUnit_of_ite ..

/-- Settles O30: every operation answers a next state, and all but ENCODE_HEX write at most the encoder. -/
theorem everyOperationAnswersANextState : Obligations.EveryOperationAnswersANextState := by
  intro i s
  obtain ⟨t, ht, -⟩ := exec_cases i s
  refine ⟨t, ht, fun hi => ?_⟩
  obtain ⟨u, hu⟩ := exec_eq_setUnit hi s
  obtain rfl := Host.Outcome.next.inj (ht.symm.trans hu)
  rfl

end Sys2Proof.Machine
end

section
/-! PROOFS. The invariant along every run, what a step may do to an encoder, the schedule and the end of an operation, and the
micro-steps one by one (spec/41_datapath_steps.md R100 to R112). -/

namespace Sys2Proof.Machine

/-! ### The invariant along every run -/

/-- Settles O41: the one encoder that a step concerns keeps its invariant, and the others are as they were. -/
theorem everyStepKeepsTheInvariant : Obligations.EveryStepKeepsTheInvariant := by
  intro s t hinv hs
  obtain ⟨c, rest, -, -, e⟩ | ⟨t', u, b, a, e, hsall, htall, -, moved, -⟩ := step_cases s
  · rw [e] at hs; cases hs
  obtain rfl := Host.Outcome.next.inj (e.symm.trans hs)
  have hu : u.Inv := hinv u (by simp [hsall])
  have hv : t'.unit.Inv := by
    obtain m | ⟨_, _, -, m⟩ := moved
    · exact m.inv hu
    · exact m.inv hu
  intro w hw
  have hw' : w ∈ b ∨ w = t'.unit ∨ w ∈ a := by simpa [htall] using hw
  obtain h | rfl | h := hw'
  · exact hinv w (by simp [hsall, h])
  · exact hv
  · exact hinv w (by simp [hsall, h])

/-- The invariant in every reachable state: it holds at reset, and every step keeps it. -/
theorem Reachable.inv {s : State} (h : Reachable s) : s.Inv := by
  induction h with
  | reset more cmds => exact invariantHoldsAtReset more cmds
  | step s t _ hs ih => exact everyStepKeepsTheInvariant s t ih hs

/-- Settles O42: the loop's running sum is the sum of the entries selected so far. -/
theorem loopInvariantOfEveryReachableState : Obligations.LoopInvariantOfEveryReachableState := by
  intro s hs u hu
  have hinv := hs.inv u hu
  refine ⟨fun hp => ?_, hinv.summed⟩
  obtain ⟨hacc, hdone⟩ := hinv.loop hp
  exact ⟨hacc.trans (linUpTo_eq_xorAll_selected u.dreg u.idx.isLt.le), hdone⟩

/-- Settles O43: the invariant's clause for `DONE = 1`, and port `ecc` shows `ACC` then. -/
theorem resultOfEveryReachableState : Obligations.ResultOfEveryReachableState := by
  intro s hs u hu hdone
  obtain ⟨hp, hidx, hacc⟩ := (hs.inv u hu).result hdone
  exact ⟨hp, hidx, hacc, hacc, fun draw => (Encoder.eccOut_of_done hdone draw).trans hacc⟩

/-! ### What a step may do to an encoder -/

/-- The encoders of a row do not depend on the one that stands at another number. -/
theorem getElem?_append_cons_of_ne (b a : List Encoder) (u v : Encoder) {j : Nat} (h : j ≠ b.length) :
    (b ++ v :: a)[j]? = (b ++ u :: a)[j]? := by
  have replaced : b ++ v :: a = (b ++ u :: a).set b.length v := by simp
  rw [replaced, List.getElem?_set_ne h.symm]

/-- What each host action asks of the encoder, as R28, R107 and R160 say it. -/
theorem Encoder.Serves.asked {n : Nat} {a : HostAction} {u v : Encoder} (m : u.Serves n a v) :
    (∃ req din, a = .drive req din ∧ v = { u with req := req, din := din }) ∨
      (∃ d, a.asks d ∧ u.ph = .idle ∧ v = u.encoded d) ∨
      (a = .reset ∧ v.ph = .idle ∧ v.done = false ∧ v.req = u.req ∧ v.din = u.din) := by
  cases m with
  | drives req din => exact .inl ⟨req, din, rfl, rfl⟩
  | encodes _ d ha hp => exact .inr (.inl ⟨d, ha, hp, rfl⟩)
  | resets => exact .inr (.inr ⟨rfl, rfl, rfl, rfl, rfl⟩)

/-- Settles O33: the encoder that the step addresses stands at the number of the encoders before it. -/
theorem stepMovesOneEncoderByAnAllowedTransition : Obligations.StepMovesOneEncoderByAnAllowedTransition := by
  intro s t hs
  obtain ⟨c, rest, -, -, e⟩ | ⟨t', u, b, a, e, hsall, htall, -, moved, -⟩ := step_cases s
  · rw [e] at hs; cases hs
  obtain rfl := Host.Outcome.next.inj (e.symm.trans hs)
  rw [hsall, htall]
  refine ⟨b.length, u, t'.unit, by simp, by simp, ?_, by simp, fun j hj => getElem?_append_cons_of_ne b a u _ hj⟩
  exact moved.imp_right fun ⟨act, rest, hh, m⟩ => ⟨act, rest, hh, m.asked⟩

/-- A busy encoder keeps its registers or takes its own micro-step, unless the oldest host action resets it. -/
theorem busy_regs_of_step {s t : State} {k : Nat} {u v : Encoder} (hs : step s = .next t) (hu : s.all[k]? = some u)
    (hv : t.all[k]? = some v) (hbusy : u.ph ≠ .idle) :
    v.regs = u.regs ∨ (u.ph = .accum ∧ v.regs = u.accumulated.regs) ∨ (u.ph = .offs ∧ v.regs = u.offsetApplied.regs) ∨
      ∃ rest, s.host = ⟨k, .reset⟩ :: rest := by
  obtain m | ⟨a, rest, hh, m⟩ := step_getElem_cases hs hu hv
  · cases m with
    | stays => exact .inl rfl
    | loads h => exact absurd h.1 hbusy
    | accumulates h => exact .inr (.inl ⟨h, rfl⟩)
    | offsets h => exact .inr (.inr (.inl ⟨h, rfl⟩))
  · cases m with
    | drives _ _ => exact .inl rfl
    | encodes _ _ _ h => exact absurd h hbusy
    | resets => exact .inr (.inr (.inr ⟨rest, hh⟩))

/-! ### The schedule of one operation -/

/-- LOAD and `n` iterations of the loop. -/
theorem Encoder.clocked_iterate_inLoop {u : Encoder} (h : u.ph = .idle) (hr : u.req = true) {n : Nat} (hn : n ≤ 63) :
    Encoder.clocked^[n + 1] u = u.inLoop n := by
  rw [Function.iterate_succ_apply, Encoder.clocked_idle h hr, u.clocked_iterate_loaded hn]

theorem Encoder.clocked_iterate_loopDone {u : Encoder} (h : u.ph = .idle) (hr : u.req = true) :
    Encoder.clocked^[65] u = u.loopDone := by
  rw [Function.iterate_succ_apply', Encoder.clocked_iterate_inLoop h hr le_rfl, Encoder.clocked_accum (u := u.inLoop 63) rfl,
    u.inLoop_accumulated_last]

theorem run_clocks_encoded {s : State} (h : s.unit.ph = .idle) (hr : s.unit.req = true) (rest : List HostCmd) :
    run 66 { s with host := clocks s.before.length 66 ++ rest } =
      .next { s with host := rest, unit := s.unit.encoded s.unit.din } := by
  rw [run_clocks, Encoder.clocked_iterate_encoded h hr]

/-- Settles O44: the 66 clock events change the encoder alone, and leave it as the atomic ENCODE does. -/
theorem sixtySixMicroStepsAreOneEncode : Obligations.SixtySixMicroStepsAreOneEncode := fun s rest h hr =>
  (run_clocks_encoded h hr rest).trans (exec_encode_idle (s := { s with host := rest }) s.unit.din h).symm

/-- Settles O45: the encoder after `n` clock events is in the loop at `n - 1`, then past the loop, then done; and a busy encoder
takes no ENCODE and no LOAD. -/
theorem scheduleOfAnOperationIsFixed : Obligations.ScheduleOfAnOperationIsFixed := by
  refine ⟨fun s n rest h hr _ => ⟨_, run_clocks n s rest, rfl, ?_, ?_, ?_, ?_⟩,
    fun s t hs k u v hu hv => busy_regs_of_step hs hu hv⟩
  · rintro rfl
    exact (Encoder.select_idle h).trans (if_pos hr)
  · intro h1 h64
    obtain ⟨n, rfl⟩ := Nat.exists_eq_add_of_le' h1
    rw [Encoder.clocked_iterate_inLoop h hr (Nat.le_of_succ_le_succ h64)]
    exact Encoder.select_accum (u := s.unit.inLoop n) rfl
  · rintro rfl
    rw [Encoder.clocked_iterate_loopDone h hr]
    exact Encoder.select_offs (u := s.unit.loopDone) rfl
  · rintro rfl
    rw [Encoder.clocked_iterate_encoded h hr]
    exact ⟨rfl, rfl⟩

/-- A request presented to an idle encoder and 66 clock events: one whole operation. -/
theorem run_drive_clocks {s : State} (h : s.unit.ph = .idle) (d : DataWord) (rest : List HostCmd) :
    run 67 { s with host := ⟨s.before.length, .drive true d⟩ :: (clocks s.before.length 66 ++ rest) } =
      .next { s with host := rest, unit := { s.unit with req := true, din := d }.encoded d } := by
  rw [run_succ 66 (step_drive s true d _)]
  exact run_clocks_encoded (s := { s with unit := { s.unit with req := true, din := d } }) h rfl rest

/-- Settles O49: each operation is the ENCODE of its word, which leaves nothing of what the encoder held before. -/
theorem backToBackOperationsAreIndependent : Obligations.BackToBackOperationsAreIndependent := by
  intro s d1 d2 h
  have first := run_drive_clocks h d1 (⟨s.before.length, .drive true d2⟩ :: clocks s.before.length 66)
  have second := run_drive_clocks (s := { s with unit := { s.unit with req := true, din := d1 }.encoded d1 }) rfl d2 []
  have fromReset := run_drive_clocks (s := State.reset) rfl d2 []
  rw [List.append_nil] at second fromReset
  exact ⟨_, _, (run_add 67 67 first).trans second, fromReset, rfl, rfl, rfl, fun _ => rfl⟩

/-! ### The measure of a busy encoder -/

theorem Encoder.stepsLeft_accum {u : Encoder} (h : u.ph = .accum) : u.stepsLeft = 65 - u.idx.toNat := by
  simp [Encoder.stepsLeft, h]

theorem Encoder.stepsLeft_offs {u : Encoder} (h : u.ph = .offs) : u.stepsLeft = 1 := by
  simp [Encoder.stepsLeft, h]

theorem Encoder.stepsLeft_eq_zero {u : Encoder} : u.stepsLeft = 0 ↔ u.ph = .idle := by
  have hlt := u.idx.isLt
  unfold Encoder.stepsLeft
  cases u.ph <;> simp
  omega

theorem Encoder.stepsLeft_le (u : Encoder) : u.stepsLeft ≤ 65 := by
  unfold Encoder.stepsLeft
  cases u.ph <;> simp

theorem Encoder.toNat_idx_succ {u : Encoder} (h : u.idx ≠ 63#6) : (u.idx + 1#6).toNat = u.idx.toNat + 1 := by
  bv_omega

theorem Encoder.accumulated_stepsLeft {u : Encoder} (h : u.ph = .accum) : u.accumulated.stepsLeft + 1 = u.stepsLeft := by
  rw [Encoder.stepsLeft_accum h]
  by_cases h63 : u.idx = 63#6
  · rw [Encoder.stepsLeft_offs (by simp [h63]), h63]
    rfl
  · rw [Encoder.stepsLeft_accum (by simp [h63, h]), Encoder.accumulated_idx, Encoder.toNat_idx_succ h63]
    have hlt : u.idx.toNat < 64 := u.idx.isLt
    omega

/-- A clock event of a busy encoder lowers the measure by one, keeps the data word, and gives a result if it makes it idle. -/
theorem Encoder.clocked_busy {u : Encoder} (h : u.ph ≠ .idle) :
    u.clocked.stepsLeft + 1 = u.stepsLeft ∧ u.clocked.dreg = u.dreg ∧ (u.clocked.ph = .idle → u.clocked.done = true) := by
  cases hp : u.ph with
  | idle => exact absurd hp h
  | accum =>
    rw [Encoder.clocked_accum hp]
    refine ⟨Encoder.accumulated_stepsLeft hp, rfl, fun hidle => ?_⟩
    rw [Encoder.accumulated_ph, hp] at hidle
    split at hidle <;> cases hidle
  | offs =>
    rw [Encoder.clocked_offs hp, Encoder.stepsLeft_offs hp]
    exact ⟨rfl, rfl, fun _ => rfl⟩

theorem Encoder.clocked_iterate_stepsLeft {u : Encoder} (h : u.ph ≠ .idle) :
    (Encoder.clocked^[u.stepsLeft] u).ph = .idle ∧ (Encoder.clocked^[u.stepsLeft] u).done = true ∧
      (Encoder.clocked^[u.stepsLeft] u).dreg = u.dreg := by
  induction hn : u.stepsLeft generalizing u with
  | zero => exact absurd (Encoder.stepsLeft_eq_zero.1 hn) h
  | succ n ih =>
    obtain ⟨hless, hdreg, hdone⟩ := Encoder.clocked_busy h
    have hleft : u.clocked.stepsLeft = n := by omega
    rw [Function.iterate_succ_apply, ← hdreg]
    by_cases hidle : u.clocked.ph = .idle
    · obtain rfl : n = 0 := hleft.symm.trans (Encoder.stepsLeft_eq_zero.2 hidle)
      exact ⟨hidle, hdone hidle, rfl⟩
    · exact ih hidle hleft

/-- Settles O47: clock events of the encoder change it alone, and each one lowers its measure. -/
theorem busyEncoderEndsAfterItsMeasure : Obligations.BusyEncoderEndsAfterItsMeasure := by
  intro s rest h
  obtain ⟨hless, -, -⟩ := Encoder.clocked_busy h
  obtain ⟨hidle, hdone, hdreg⟩ := Encoder.clocked_iterate_stepsLeft h
  exact ⟨⟨_, step_clock s rest, hless⟩, _, run_clocks s.unit.stepsLeft s rest, hidle, hdone, hdreg, rfl, rfl, rfl⟩

/-! ### The end of the run -/

theorem Encoder.clocked_req (u : Encoder) : u.clocked.req = u.req := by
  unfold Encoder.clocked
  cases u.ph <;> cases hr : u.req <;> simp [hr]

theorem Encoder.clocked_stepsLeft_of_no_request {u : Encoder} (hr : u.req = false) : u.clocked.stepsLeft = u.stepsLeft - 1 := by
  by_cases h : u.ph = .idle
  · have stays : u.clocked = u := by simp [Encoder.clocked, h, hr]
    rw [stays, Encoder.stepsLeft_eq_zero.2 h]
  · obtain ⟨hless, -, -⟩ := Encoder.clocked_busy h
    omega

theorem Encoder.clocked_iterate_stepsLeft_of_no_request {u : Encoder} (hr : u.req = false) (n : Nat) :
    (Encoder.clocked^[n] u).stepsLeft = u.stepsLeft - n := by
  induction n generalizing u with
  | zero => rfl
  | succ n ih =>
    rw [Function.iterate_succ_apply, ih (u.clocked_req.trans hr), Encoder.clocked_stepsLeft_of_no_request hr]
    omega

/-- With no request presented, as many clock events as the longest measure make an encoder idle. -/
theorem Encoder.clocked_iterate_idle {u : Encoder} (hr : u.req = false) : (Encoder.clocked^[65] u).ph = .idle := by
  rw [← Encoder.stepsLeft_eq_zero, Encoder.clocked_iterate_stepsLeft_of_no_request hr]
  exact Nat.sub_eq_zero_of_le u.stepsLeft_le

/-- The encoders in the order in which they get their next clock events while no host action is pending (log entry 9). -/
def State.waiting (s : State) : List Encoder := s.after ++ (s.before ++ [s.unit])

theorem State.mem_waiting {s : State} {u : Encoder} : u ∈ s.waiting ↔ u ∈ s.all := by
  simp only [State.waiting, State.all, List.mem_append, List.mem_cons, List.not_mem_nil]
  tauto

/-- The encoder first in turn is addressed next, and goes to the end of the row. -/
theorem State.focusNext_waiting {s : State} {v : Encoder} {rest : List Encoder} (h : s.waiting = v :: rest) :
    s.focusNext.unit = v ∧ s.focusNext.after ++ s.focusNext.before = rest := by
  unfold State.waiting at h
  unfold State.focusNext
  split
  · next e => simp_all
  · next e => split <;> simp_all

/-- A step of a machine with no host action pending clocks the encoder first in turn. -/
theorem step_waiting {s : State} {v : Encoder} {rest : List Encoder} (hh : s.host = []) (h : s.waiting = v :: rest) :
    ∃ t, step s = .next t ∧ t.host = [] ∧ t.waiting = rest ++ [v.clocked] := by
  obtain ⟨rfl, hrest⟩ := State.focusNext_waiting h
  obtain ⟨-, hhost, -⟩ := s.focusNext_spec
  refine ⟨_, (step_of_host_nil hh).trans (clockUnit_eq _), hhost.trans hh, ?_⟩
  rw [← hrest]
  simp [State.waiting]

theorem run_waiting {s : State} {l r : List Encoder} (hh : s.host = []) (h : s.waiting = l ++ r) :
    ∃ t, run l.length s = .next t ∧ t.host = [] ∧ t.waiting = r ++ l.map Encoder.clocked := by
  induction l generalizing s r with
  | nil => exact ⟨s, rfl, hh, by simpa using h⟩
  | cons v l ih =>
    obtain ⟨s', hs, hh', hwait⟩ := step_waiting hh h
    obtain ⟨t, ht, hhost, hend⟩ := ih hh' (hwait.trans (List.append_assoc ..))
    exact ⟨t, (run_succ _ hs).trans ht, hhost, by simp [hend]⟩

/-- `n` rounds: every encoder gets `n` clock events. -/
theorem run_rounds {s : State} (hh : s.host = []) (n : Nat) :
    ∃ m t, run m s = .next t ∧ t.host = [] ∧ t.waiting = s.waiting.map Encoder.clocked^[n] := by
  induction n with
  | zero => exact ⟨0, s, rfl, hh, by simp⟩
  | succ n ih =>
    obtain ⟨m, s', hs, hh', hwait⟩ := ih
    obtain ⟨t, ht, hhost, hend⟩ := run_waiting (l := s'.waiting) (r := []) hh' (List.append_nil _).symm
    refine ⟨m + s'.waiting.length, t, (run_add _ _ hs).trans ht, hhost, ?_⟩
    rw [hend, hwait, List.nil_append, List.map_map, ← Function.iterate_succ']

/-- Settles O48: 65 rounds of clock events end every operation, and with no request presented none begins. -/
theorem runEndsOnceTheHostIsDone : Obligations.RunEndsOnceTheHostIsDone := by
  intro s hh hreq
  obtain ⟨n, t, ht, hhost, hwait⟩ := run_rounds hh 65
  refine ⟨n, t, ht, hhost, fun v hv => ?_⟩
  rw [← State.mem_waiting, hwait] at hv
  obtain ⟨u, hu, rfl⟩ := List.mem_map.1 hv
  exact Encoder.clocked_iterate_idle (hreq u (State.mem_waiting.1 hu))

/-! ### The micro-steps -/

theorem exec_accum_drivePorts (s : State) (req : Bool) (din : DataWord) (i : Index) :
    ∃ t, exec (.accum i) s = .next t ∧ exec (.accum i) (s.drivePorts req din) = .next (t.drivePorts req din) := by
  by_cases h : s.unit.ph = .accum ∧ s.unit.idx = i
  · exact ⟨_, execAccum_enabled i h.1 h.2, execAccum_enabled (s := s.drivePorts req din) i h.1 h.2⟩
  · exact ⟨_, execAccum_disabled i h, execAccum_disabled (s := s.drivePorts req din) i h⟩

theorem exec_offs_drivePorts (s : State) (req : Bool) (din : DataWord) (x : Index) :
    ∃ t, exec (.offs x) s = .next t ∧ exec (.offs x) (s.drivePorts req din) = .next (t.drivePorts req din) := by
  by_cases h : s.unit.ph = .offs
  · exact ⟨_, execOffs_enabled x h, execOffs_enabled (s := s.drivePorts req din) x h⟩
  · exact ⟨_, execOffs_disabled x h, execOffs_disabled (s := s.drivePorts req din) x h⟩

/-- Settles O12: LOAD leaves the registers `loaded`, and setting the ports commutes with ACCUM and OFFS. -/
theorem loadTakesTheWordOnDin : Obligations.LoadTakesTheWordOnDin := by
  intro s x
  refine ⟨fun h hr => ⟨(Encoder.select_idle h).trans (if_pos hr), execLoad_enabled x h hr⟩, fun req din i => ⟨?_, ?_⟩⟩
  · exact exec_accum_drivePorts s req din i
  · exact exec_offs_drivePorts s req din x

/-- The registers after ACCUM, as R101 writes them. -/
theorem Encoder.accumulated_eq {u : Encoder} (h : u.ph = .accum) :
    u.accumulated = { u with
      acc := if u.dreg.getLsbD u.idx.toNat then u.acc ^^^ parityRom u.idx else u.acc
      ph := if u.idx.toNat = 63 then .offs else .accum
      idx := BitVec.ofNat 6 ((u.idx.toNat + 1) % 64) } := by
  have last : u.idx = 63#6 ↔ u.idx.toNat = 63 := BitVec.toNat_inj.symm
  have succ : u.idx + 1#6 = BitVec.ofNat 6 ((u.idx.toNat + 1) % 64) := by bv_omega
  ext1
  case h1 => simp [h, last]
  case h4 => exact succ
  all_goals rfl

/-- Settles O13: the registers after ACCUM, with the index as a number. -/
theorem accumAddsTheEntryOfASetBit : Obligations.AccumAddsTheEntryOfASetBit := by
  intro s h
  refine ⟨Encoder.select_accum h, ?_⟩
  rw [← Encoder.accumulated_eq h]
  exact execAccum_enabled s.unit.idx h rfl

/-- Settles O14: OFFS leaves the registers `offsetApplied`; that `IDX` is 0 is a clause of the invariant. -/
theorem offsAppliesTheOffsetAndSetsDone : Obligations.OffsAppliesTheOffsetAndSetsDone :=
  fun _ x h => ⟨Encoder.select_offs h, execOffs_enabled x h, fun hinv => (hinv.summed h).1⟩

/-- Settles O15: each micro-step tests its enabling condition and otherwise answers the state it was given. -/
theorem microStepNotSelectedChangesNothing : Obligations.MicroStepNotSelectedChangesNothing :=
  fun _ x => ⟨execLoad_disabled x, execAccum_disabled x, execOffs_disabled x⟩

end Sys2Proof.Machine
end

section
/-! PROOFS. The text interface: the tables of HexVal and Digit, ParseHex16, FormatHex2, and ENCODE_HEX at an idle and at a busy
encoder (spec/42_host_text_interface.md R121 to R125; spec/70_reset_and_hazards.md R166). -/

namespace Sys2Proof.Machine

/-! ### A call that is held until the running operation has ended -/

/-- A clock event writes no port, and ENCODE writes every register, so the ENCODE after it is the ENCODE before it. -/
theorem Encoder.encoded_clocked (u : Encoder) (d : DataWord) : u.clocked.encoded d = u.encoded d := by
  obtain ⟨h, hr, -⟩ | ⟨h, hr, -⟩ | ⟨h, -⟩ | ⟨h, -⟩ := u.select_cases
  · have stays : u.clocked = u := by simp [Encoder.clocked, h, hr]
    rw [stays]
  · rw [Encoder.clocked_idle h hr]; rfl
  · rw [Encoder.clocked_accum h]; rfl
  · rw [Encoder.clocked_offs h]; rfl

section
variable {s : State} {t : Text} {d : DataWord} {rest : List HostCmd}

theorem needsIdle_encodeHex (ht : parseHex16 t = .ok d) : needsIdle (.encodeHex t) = true := by
  simp [needsIdle, ht]

/-- A valid call to a busy encoder: the step is a clock event of the encoder, and the call stays. -/
theorem step_call_busy (ht : parseHex16 t = .ok d) (hh : s.host = ⟨s.before.length, .call t⟩ :: rest)
    (hp : s.unit.ph ≠ .idle) : step s = .next (s.setUnit s.unit.clocked) :=
  (step_action hh s.focusOn_self).trans
    ((runRaw_held (r := .hex16 t) rest rfl (needsIdle_encodeHex ht) hp).trans (clockUnit_eq s))

/-- A valid call to an idle encoder: the step takes the call off the list and answers it. -/
theorem step_call_idle (ht : parseHex16 t = .ok d) (hh : s.host = ⟨s.before.length, .call t⟩ :: rest)
    (hp : s.unit.ph = .idle) :
    step s = .next (((s.setHost rest).setUnit (s.unit.encoded d)).answer (.text (formatHex2 (eccOf d)))) :=
  (step_action hh s.focusOn_self).trans
    ((runRaw_ok (r := .hex16 t) rest rfl fun _ => hp).trans (exec_encodeHex_idle (s := s.setHost rest) ht hp))

/-- A valid call is answered after the steps that the running operation has left, and one more. -/
theorem run_call (ht : parseHex16 t = .ok d) (hh : s.host = ⟨s.before.length, .call t⟩ :: rest) :
    run (s.unit.stepsLeft + 1) s =
      .next (((s.setHost rest).setUnit (s.unit.encoded d)).answer (.text (formatHex2 (eccOf d)))) := by
  induction hn : s.unit.stepsLeft generalizing s with
  | zero => exact run_succ 0 (step_call_idle ht hh (Encoder.stepsLeft_eq_zero.1 hn))
  | succ n ih =>
    have hbusy : s.unit.ph ≠ .idle := fun hp => by rw [Encoder.stepsLeft_eq_zero.2 hp] at hn; cases hn
    obtain ⟨hless, -, -⟩ := Encoder.clocked_busy hbusy
    have later := ih (s := s.setUnit s.unit.clocked) hh (Nat.succ.inj (hless.trans hn))
    rw [State.setUnit_unit, Encoder.encoded_clocked] at later
    exact (run_succ (n + 1) (step_call_busy ht hh hbusy)).trans later

end

/-- Settles O25: while the call is held every step lowers the measure of the running operation, and at 0 the call is taken. -/
theorem heldTextCallIsAnsweredWithItsCode : Obligations.HeldTextCallIsAnsweredWithItsCode :=
  fun _ _ _ _ ht hh => ⟨_, run_call ht hh, rfl, rfl, rfl, rfl, rfl⟩

/-- Settles O21: the registers are `encoded d`, and the reply is the accumulator's value in print. -/
theorem encodeHexReturnsThePrintedCode : Obligations.EncodeHexReturnsThePrintedCode :=
  fun _ _ _ ht h => exec_encodeHex_idle ht h

/-! ### The alphabet -/

/-- The characters that `HexVal` has a value for are the 22 of R120. -/
theorem inAlphabet_iff (c : Char) : inAlphabet c = true ↔ c ∈ alphabet22 := by
  have keys : alphabet22 = hexTable.map Prod.fst := rfl
  rw [keys, inAlphabet, hexVal, List.lookup_isSome_iff]
  simp only [List.mem_map, beq_iff_eq, eq_comm (a := c)]

theorem hexVal_eq_none {c : Char} (h : c ∉ alphabet22) : hexVal c = none := by
  rwa [← inAlphabet_iff, inAlphabet, Bool.not_eq_true, Option.isSome_eq_false_iff, Option.isNone_iff_eq_none] at h

theorem hexVal_eq_digitVal {c : Char} (h : c ∈ alphabet22) : hexVal c = some (digitVal c) := by
  obtain ⟨n, hn⟩ := Option.isSome_iff_exists.1 ((inAlphabet_iff c).2 h)
  rw [digitVal, hn, Option.getD_some]

theorem all_inAlphabet_iff (t : Text) : t.all inAlphabet = true ↔ ∀ c ∈ t, c ∈ alphabet22 := by
  simp only [List.all_eq_true, inAlphabet_iff]

/-- Settles O51: the tables are evaluated, and no character outside the alphabet is a key of `hexTable`. -/
theorem hexValAndDigitHaveTheValuesOfTheirTables : Obligations.HexValAndDigitHaveTheValuesOfTheirTables :=
  ⟨by decide, by decide, by decide, fun _ => hexVal_eq_none, by decide, fun _ => rfl, by decide⟩

/-! ### FormatHex2 -/

theorem hexDigit_mem_lowercase (v : BitVec 4) : hexDigit v ∈ alphabet22.take 16 := by
  revert v; decide

theorem hexVal_high_digit (e : Byte) : hexVal (hexDigit (e.extractLsb' 4 4)) = some (e.toNat / 16) := by
  have hlt := e.isLt
  rw [hexVal_hexDigit, BitVec.extractLsb'_toNat, Nat.shiftRight_eq_div_pow, Nat.mod_eq_of_lt (by omega)]

theorem hexVal_low_digit (e : Byte) : hexVal (hexDigit (e.extractLsb' 0 4)) = some (e.toNat % 16) := by
  rw [hexVal_hexDigit, BitVec.extractLsb'_toNat, Nat.shiftRight_zero]

/-- The values of the two digits give the byte back. -/
theorem formatHex2_injective : Function.Injective formatHex2 := by
  intro e e' h
  have values : (formatHex2 e).map hexVal = (formatHex2 e').map hexVal := congrArg _ h
  simp only [formatHex2, List.map_cons, List.map_nil, hexVal_high_digit, hexVal_low_digit, List.cons.injEq,
    Option.some.injEq, and_true] at values
  exact BitVec.eq_of_toNat_eq (by omega)

/-- Settles O20: each of the two characters is the digit of its four bits. -/
theorem formatHex2PrintsTwoLowercaseDigits : Obligations.FormatHex2PrintsTwoLowercaseDigits :=
  ⟨fun e => ⟨_, _, rfl, hexDigit_mem_lowercase _, hexDigit_mem_lowercase _, hexVal_high_digit e, hexVal_low_digit e⟩,
    fun _ _ h => formatHex2_injective h⟩

/-! ### ParseHex16 -/

/-- The running value of `hexSum` is the positional sum, the last digit of weight 1. -/
theorem hexSum_eq_sum (t : Text) :
    hexSum t = ((List.range t.length).map fun k => digitVal (t.getD k '0') * 16 ^ (t.length - 1 - k)).sum := by
  induction t using List.reverseRecOn with
  | nil => rfl
  | append_singleton t c ih =>
    have shifted : ∀ k ∈ List.range t.length,
        digitVal ((t ++ [c]).getD k '0') * 16 ^ (t.length - k) =
          16 * (digitVal (t.getD k '0') * 16 ^ (t.length - 1 - k)) := by
      intro k hk
      have hlt := List.mem_range.1 hk
      have weight : t.length - k = t.length - 1 - k + 1 := by omega
      rw [List.getD_append _ _ _ _ hlt, weight, Nat.pow_succ]
      ring
    rw [hexSum_append, ih, List.length_append, List.length_singleton, Nat.add_sub_cancel, List.range_succ, List.map_append,
      List.map_congr_left shifted, List.sum_append, List.sum_map_mul_left]
    simp

/-- Digit `k` of the positional value is character `k`. -/
theorem hexSum_div_mod (t : Text) {k : Nat} (hk : k < t.length) :
    hexSum t / 16 ^ (t.length - 1 - k) % 16 = digitVal (t.getD k '0') := by
  induction t using List.reverseRecOn with
  | nil => cases hk
  | append_singleton t c ih =>
    have small := digitVal_lt c
    rw [hexSum_append, List.length_append, List.length_singleton, Nat.add_sub_cancel]
    obtain hlt | rfl : k < t.length ∨ k = t.length := by
      rw [List.length_append, List.length_singleton] at hk
      omega
    · have weight : t.length - k = t.length - 1 - k + 1 := by omega
      have front : (16 * hexSum t + digitVal c) / 16 = hexSum t := by omega
      rw [weight, Nat.pow_succ', ← Nat.div_div_eq_div_mul, front, ih hlt, List.getD_append _ _ _ _ hlt]
    · rw [Nat.sub_self, Nat.pow_zero, Nat.div_one, List.getD_append_right _ _ _ _ le_rfl, Nat.sub_self,
        List.getD_cons_zero]
      omega

/-- A string of 16 characters has a value of 64 bits, so the word parsed is that value. -/
theorem toNat_ofNat_hexSum {t : Text} (h : t.length = 16) : (BitVec.ofNat 64 (hexSum t)).toNat = hexSum t := by
  have bound := hexSum_lt t
  rw [h] at bound
  rw [BitVec.toNat_ofNat, Nat.mod_eq_of_lt (by omega)]

/-- Bits 63-4k down to 60-4k of the word parsed are character `k`. -/
theorem extractLsb'_ofNat_hexSum {t : Text} (h : t.length = 16) {k : Nat} (hk : k < 16) :
    ((BitVec.ofNat 64 (hexSum t)).extractLsb' (60 - 4 * k) 4).toNat = digitVal (t.getD k '0') := by
  have digit := hexSum_div_mod t (h ▸ hk)
  have place : 2 ^ (60 - 4 * k) = 16 ^ (15 - k) := by
    rw [show 60 - 4 * k = 4 * (15 - k) by omega, Nat.pow_mul]
  rw [h] at digit
  rw [BitVec.extractLsb'_toNat, toNat_ofNat_hexSum h, Nat.shiftRight_eq_div_pow, place]
  exact digit

theorem parseHex16_of_length_ne {t : Text} (h : t.length ≠ 16) : parseHex16 t = .error .invalidLength := if_neg h

theorem parseHex16_of_not_all {t : Text} (h : t.length = 16) (ha : ¬ ∀ c ∈ t, c ∈ alphabet22) :
    parseHex16 t = .error .invalidFormat :=
  (if_pos h).trans (if_neg (mt (all_inAlphabet_iff t).1 ha))

theorem parseHex16_of_all {t : Text} (h : t.length = 16) (ha : ∀ c ∈ t, c ∈ alphabet22) :
    parseHex16 t = .ok (BitVec.ofNat 64 (hexSum t)) :=
  (if_pos h).trans (if_pos ((all_inAlphabet_iff t).2 ha))

/-- Settles O17: the word parsed is the positional value, whose digits are the characters' values. -/
theorem parseHex16ValidatesThenAddsUpTheDigits : Obligations.ParseHex16ValidatesThenAddsUpTheDigits := by
  refine fun t => ⟨parseHex16_of_length_ne, fun h ⟨c, hc, hout⟩ => parseHex16_of_not_all h fun ha => hout (ha c hc),
    fun h ha => ⟨_, parseHex16_of_all h ha, ?_, fun k hk => ?_⟩⟩
  · rw [toNat_ofNat_hexSum h, hexSum_eq_sum, h]
  · have member : t.getD k '0' ∈ t := by
      rw [List.getD_eq_getElem _ _ (h ▸ hk)]
      exact List.getElem_mem _
    rw [extractLsb'_ofNat_hexSum h hk]
    exact hexVal_eq_digitVal (ha _ member)

end Sys2Proof.Machine
end

section
/-! PROOFS. The two errors of ENCODE_HEX and what they leave behind, and when the machine stops (spec/60_exceptions.md R140 to R147,
R151; spec/70_reset_and_hazards.md R175). -/

namespace Sys2Proof.Machine

/-! ### Which string raises which error -/

theorem all_inAlphabet_eq_false_iff (t : Text) : t.all inAlphabet = false ↔ ∃ c ∈ t, c ∉ alphabet22 := by
  simp only [List.all_eq_false, inAlphabet_iff]

theorem parseHex16_eq_invalidLength_iff (t : Text) : parseHex16 t = .error .invalidLength ↔ t.length ≠ 16 := by
  obtain ⟨h, e⟩ | ⟨h, -, e⟩ | ⟨h, -, e⟩ := parseHex16_cases t <;> simp [h, e]

theorem parseHex16_eq_invalidFormat_iff (t : Text) :
    parseHex16 t = .error .invalidFormat ↔ t.length = 16 ∧ ∃ c ∈ t, c ∉ alphabet22 := by
  rw [← all_inAlphabet_eq_false_iff]
  obtain ⟨h, e⟩ | ⟨h, ha, e⟩ | ⟨h, ha, e⟩ := parseHex16_cases t
  · simp [h, e]
  · simp [h, ha, e]
  · simp [ha, e]

theorem exec_encodeHex_error {t : Text} {e : TextError} (s : State) (h : parseHex16 t = .error e) :
    exec (.encodeHex t) s = .next (s.raise e) := execEncodeHex_error s h

/-- Settles O22: the two tests of `ParseHex16`, and `raise` writes the reply alone. -/
theorem invalidTextRaisesItsErrorAndChangesNothingElse : Obligations.InvalidTextRaisesItsErrorAndChangesNothingElse :=
  fun t => ⟨parseHex16_eq_invalidLength_iff t, parseHex16_eq_invalidFormat_iff t, fun _ s h => exec_encodeHex_error s h⟩

/-! ### Who hands over an error -/

/-- An error that stands after ENCODE_HEX is the string's own, or stood before a call that was not taken. -/
theorem error_of_exec_encodeHex {t : Text} {s u : State} {e : TextError} (hu : exec (.encodeHex t) s = .next u)
    (he : u.reply = some (.error e)) : s.reply = some (.error e) ∨ parseHex16 t = .error e := by
  cases hp : parseHex16 t with
  | error e' =>
    obtain rfl := Host.Outcome.next.inj ((exec_encodeHex_error s hp).symm.trans hu)
    exact .inr (by simpa using he)
  | ok d =>
    by_cases hidle : s.unit.ph = .idle
    · obtain rfl := Host.Outcome.next.inj ((exec_encodeHex_idle hp hidle).symm.trans hu)
      simp at he
    · obtain rfl := Host.Outcome.next.inj ((execEncodeHex_busy hp hidle).symm.trans hu)
      exact .inl he

/-- Settles O52: the code is that of the error the string raises, and no operation but ENCODE_HEX writes the reply. -/
theorem errorCodesAreThoseOfTheList : Obligations.ErrorCodesAreThoseOfTheList := by
  refine ⟨⟨rfl, rfl, rfl⟩, fun t s h => ?_, fun t s h hout => ?_, fun i s u e hu he => ?_⟩
  · exact ⟨_, _, exec_encodeHex_error s ((parseHex16_eq_invalidLength_iff t).2 h), rfl, rfl⟩
  · exact ⟨_, _, exec_encodeHex_error s ((parseHex16_eq_invalidFormat_iff t).2 ⟨h, hout⟩), rfl, rfl⟩
  · by_cases hi : ∃ t, i = .encodeHex t
    · obtain ⟨t, rfl⟩ := hi
      exact (error_of_exec_encodeHex hu he).imp_right fun hp => ⟨t, rfl, hp⟩
    · obtain ⟨v, hv, hreply⟩ := everyOperationAnswersANextState i s
      obtain rfl := Host.Outcome.next.inj (hv.symm.trans hu)
      exact .inl ((hreply (not_exists.1 hi)).symm.trans he)

/-! ### No operation reads the reply -/

/-- Both outcomes are next states, the same but for what the host was handed. -/
def AgreeUpToReply (a b : Host.Outcome State Fault Refusal) : Prop :=
  ∃ u v, a = .next u ∧ b = .next v ∧ { u with reply := none } = { v with reply := none }

/-- A change of the encoder that is taken under a condition, where neither depends on the reply. -/
theorem agreeUpToReply_of_ite (p : Prop) [Decidable p] (s : State) (r : Reply) (u : Encoder) :
    AgreeUpToReply (if p then .next ((s.answer r).setUnit u) else .next (s.answer r))
      (if p then .next (s.setUnit u) else .next s) := by
  split
  · exact ⟨_, _, rfl, rfl, rfl⟩
  · exact ⟨_, _, rfl, rfl, rfl⟩

theorem exec_encodeHex_agreeUpToReply (t : Text) (s : State) (r : Reply) :
    AgreeUpToReply (exec (.encodeHex t) (s.answer r)) (exec (.encodeHex t) s) := by
  cases hp : parseHex16 t with
  | error e => exact ⟨_, _, exec_encodeHex_error _ hp, exec_encodeHex_error s hp, rfl⟩
  | ok d =>
    by_cases hidle : s.unit.ph = .idle
    · exact ⟨_, _, exec_encodeHex_idle (s := s.answer r) hp hidle, exec_encodeHex_idle hp hidle, rfl⟩
    · exact ⟨_, _, execEncodeHex_busy (s := s.answer r) hp hidle, execEncodeHex_busy hp hidle, rfl⟩

theorem exec_agreeUpToReply (i : Instr) (s : State) (r : Reply) : AgreeUpToReply (exec i (s.answer r)) (exec i s) := by
  cases i with
  | encode d => exact agreeUpToReply_of_ite ..
  | encodeHex t => exact exec_encodeHex_agreeUpToReply t s r
  | load x => exact agreeUpToReply_of_ite ..
  | accum k => exact agreeUpToReply_of_ite ..
  | offs x => exact agreeUpToReply_of_ite ..

/-- Settles O23: the failed call writes the reply alone, and no operation reads it. -/
theorem errorLeavesNoTraceForTheNextOperation : Obligations.ErrorLeavesNoTraceForTheNextOperation := by
  intro t e s i ht
  obtain ⟨u, v, hu, hv, h⟩ := exec_agreeUpToReply i s (.error e)
  exact ⟨s.raise e, u, v, exec_encodeHex_error s ht, hu, hv, h⟩

/-! ### When the machine stops -/

theorem step_of_missing {s : State} {c : HostCmd} {rest : List HostCmd} (hh : s.host = c :: rest)
    (hc : s.all.length ≤ c.target) : step s = .fault .noSuchInstance := by
  simp only [step, hh, State.focusOn_eq_none.2 hc]

/-- Settles O31: of the two cases of a step only the missing encoder is a stop. -/
theorem stepStopsOnlyOnAMissingEncoder : Obligations.StepStopsOnlyOnAMissingEncoder := by
  intro s
  refine ⟨⟨fun hs => ?_, fun ⟨_, _, hh, hc⟩ => step_of_missing hh hc⟩, fun hs => ?_⟩
  · obtain ⟨c, rest, hh, hc, -⟩ | ⟨t, -, -, -, e, -⟩ := step_cases s
    · exact ⟨c, rest, hh, hc⟩
    · rw [e] at hs; cases hs
  · obtain ⟨-, -, -, -, e⟩ | ⟨t, -, -, -, e, -⟩ := step_cases s
    · exact absurd e hs
    · exact ⟨t, e⟩

/-- Every pending action names an encoder that exists. -/
def State.Admissible (s : State) : Prop := ∀ c ∈ s.host, c.target < s.all.length

/-- A step from such a state is no stop, adds no action and keeps the number of encoders. -/
theorem step_of_admissible {s : State} (h : s.Admissible) : ∃ t, step s = .next t ∧ t.Admissible := by
  obtain ⟨c, rest, hh, hc, -⟩ | ⟨t, u, b, a, e, hsall, htall, -, -, hhost⟩ := step_cases s
  · exact absurd (h c (by simp [hh])) (Nat.not_lt.2 hc)
  · have sameLength : t.all.length = s.all.length := by simp [hsall, htall]
    have fewer : ∀ c ∈ t.host, c ∈ s.host := by
      obtain e | e := hhost
      · simp [e]
      · rw [e]
        exact fun c => List.mem_of_mem_tail
    exact ⟨t, e, fun c hc => sameLength ▸ h c (fewer c hc)⟩

/-- Settles O32: by induction on the number of steps, each of which keeps the host's actions admissible. -/
theorem machineNeverStopsForAnAdmissibleHost : Obligations.MachineNeverStopsForAnAdmissibleHost := by
  intro n
  induction n with
  | zero => exact fun s _ => ⟨s, run_zero s⟩
  | succ n ih =>
    intro s h
    obtain ⟨s', hs, h'⟩ := step_of_admissible h
    obtain ⟨t, ht⟩ := ih s' h'
    exact ⟨t, (run_succ n hs).trans ht⟩

end Sys2Proof.Machine
end

section
/-! PROOFS. Reset in every state and what follows it, a request held by a busy encoder, and the schedule as a function of the control
part alone (spec/70_reset_and_hazards.md R160, R161, R166, R174). -/

namespace Sys2Proof.Machine

/-! ### Reset -/

/-- Settles O35: the step is `resetUnit` of the addressed encoder, and the three free values are the draws of its number. -/
theorem resetIsEnabledInEveryState : Obligations.ResetIsEnabledInEveryState := by
  intro s s' k rest hh hf
  obtain ⟨-, -, -, hreply, -⟩ := State.focusOn_some hf
  exact ⟨(s'.setHost rest).resetUnit, Config.freeAcc s'.draws, Config.freeDreg s'.draws, Config.freeIdx s'.draws,
    step_action hh hf, rfl, rfl, rfl, rfl, rfl, rfl, hreply⟩

/-- A reset of the encoder addressed now and `n` clock events of it concern this encoder alone. -/
theorem run_reset_clocks {s : State} {n : Nat} {rest : List HostCmd}
    (hh : s.host = ⟨s.before.length, .reset⟩ :: clocks s.before.length n ++ rest) :
    run (n + 1) s = .next { s with
      host := rest, unit := Encoder.clocked^[n] (s.unit.afterReset s.draws), draws := s.draws + 1 } := by
  have reset : step s = .next (s.setHost (clocks s.before.length n ++ rest)).resetUnit := step_action hh s.focusOn_self
  exact (run_succ n reset).trans (run_clocks n (s.setHost []).resetUnit rest)

theorem Encoder.clocked_idle_of_no_request {u : Encoder} (h : u.ph = .idle) (hr : u.req = false) : u.clocked = u := by
  simp [Encoder.clocked, h, hr]

/-- Settles O36: the reset encoder is idle, and with no request its clock events leave it as it is. -/
theorem resetDiscardsTheRunningOperation : Obligations.ResetDiscardsTheRunningOperation := by
  intro s n rest _ hr hh
  have stays : Encoder.clocked^[n] (s.unit.afterReset s.draws) = s.unit.afterReset s.draws :=
    Function.iterate_fixed (Encoder.clocked_idle_of_no_request (u := s.unit.afterReset s.draws) rfl hr) n
  refine ⟨_, run_reset_clocks hh, ?_⟩
  rw [stays]
  exact ⟨rfl, rfl, rfl, rfl⟩

/-! ### A reset with the request still presented -/

theorem Encoder.clocked_din (u : Encoder) : u.clocked.din = u.din := by
  unfold Encoder.clocked
  split
  · split <;> rfl
  · rfl
  · rfl

/-- No clock event sets a level on an input port (R28). -/
theorem Encoder.clocked_iterate_ports (u : Encoder) (n : Nat) :
    (Encoder.clocked^[n] u).req = u.req ∧ (Encoder.clocked^[n] u).din = u.din := by
  induction n with
  | zero => exact ⟨rfl, rfl⟩
  | succ n ih =>
    rw [Function.iterate_succ_apply', Encoder.clocked_req, Encoder.clocked_din]
    exact ih

/-- Between LOAD and OFFS the encoder is busy with the word it took: in the loop, or past it (R104). -/
theorem Encoder.clocked_iterate_running {u : Encoder} (h : u.ph = .idle) (hr : u.req = true) {n : Nat} (h1 : 1 ≤ n)
    (h65 : n ≤ 65) :
    (Encoder.clocked^[n] u).ph ≠ .idle ∧ (Encoder.clocked^[n] u).done = false ∧ (Encoder.clocked^[n] u).dreg = u.din := by
  obtain ⟨n, rfl⟩ := Nat.exists_eq_add_of_le' h1
  obtain hn | rfl : n ≤ 63 ∨ n = 64 := by omega
  · rw [Encoder.clocked_iterate_inLoop h hr hn]
    exact ⟨nofun, rfl, rfl⟩
  · rw [Encoder.clocked_iterate_loopDone h hr]
    exact ⟨nofun, rfl, rfl⟩

/-- Settles O53: the reset encoder is idle with the request presented, so the clock events after it are a whole operation. -/
theorem resetWithARequestPresentedTakesThatRequest : Obligations.ResetWithARequestPresentedTakesThatRequest := by
  intro s n rest hr _ hh
  have hidle : (s.unit.afterReset s.draws).ph = .idle := rfl
  obtain ⟨hreq, hdin⟩ := (s.unit.afterReset s.draws).clocked_iterate_ports n
  refine ⟨_, run_reset_clocks hh, rfl, rfl, rfl, rfl, hreq.trans hr, hdin, ?_, ?_, ?_⟩
  · rintro rfl
    exact ⟨rfl, rfl⟩
  · exact Encoder.clocked_iterate_running hidle hr
  · rintro rfl
    exact Encoder.clocked_iterate_encoded hidle hr

/-! ### A request to a busy encoder -/

/-- A request that a busy encoder cannot take is held: the action is its own clock event and stays pending (R166). -/
theorem serve_of_asks_busy {a : HostAction} {d : DataWord} {s : State} (rest : List HostCmd) (ha : a.asks d)
    (hp : s.unit.ph ≠ .idle) : serve a rest s = clockUnit s := by
  obtain rfl | ⟨t, rfl, ht⟩ := ha
  · exact runRaw_held (r := .req64 d) rest rfl rfl hp
  · exact runRaw_held (r := .hex16 t) rest rfl (needsIdle_encodeHex ht) hp

/-- Settles O10: neither ENCODE is taken by a busy encoder, and the step is its clock event, which keeps the data word. -/
theorem requestToABusyEncoderIsHeld : Obligations.RequestToABusyEncoderIsHeld := by
  intro d t s rest hp
  refine ⟨execEncode_busy d hp, fun ht => execEncodeHex_busy ht hp, fun a ha hh => ?_⟩
  have asks : a.asks d := ha.imp_right fun h => ⟨t, h⟩
  have held : step s = clockUnit s := (step_action hh s.focusOn_self).trans (serve_of_asks_busy rest asks hp)
  obtain ⟨-, hdreg, -⟩ := Encoder.clocked_busy hp
  exact ⟨held, s.setUnit s.unit.clocked, held.trans (clockUnit_eq s), rfl, hdreg, rfl, rfl, rfl⟩

/-! ### The schedule does not depend on the data -/

/-- What a clock event does to `PH`, `DONE`, `IDX` is read from these three and `req`. -/
theorem Encoder.clocked_control_congr {u v : Encoder} (hc : u.control = v.control) (hr : u.req = v.req) :
    u.clocked.control = v.clocked.control := by
  obtain ⟨hph, hdone, hidx⟩ : u.ph = v.ph ∧ u.done = v.done ∧ u.idx = v.idx := by simpa [Encoder.control] using hc
  cases hp : v.ph with
  | idle =>
    cases hq : v.req with
    | false =>
      rw [Encoder.clocked_idle_of_no_request (hph.trans hp) (hr.trans hq), Encoder.clocked_idle_of_no_request hp hq, hc]
    | true =>
      rw [Encoder.clocked_idle (hph.trans hp) (hr.trans hq), Encoder.clocked_idle hp hq]
      rfl
  | accum =>
    rw [Encoder.clocked_accum (hph.trans hp), Encoder.clocked_accum hp]
    simp [Encoder.control, hph, hdone, hidx]
  | offs =>
    rw [Encoder.clocked_offs (hph.trans hp), Encoder.clocked_offs hp]
    simp [Encoder.control, hidx]

theorem Encoder.clocked_iterate_control_congr {u v : Encoder} (hc : u.control = v.control) (hr : u.req = v.req) (n : Nat) :
    (Encoder.clocked^[n] u).control = (Encoder.clocked^[n] v).control := by
  induction n generalizing u v with
  | zero => exact hc
  | succ n ih =>
    rw [Function.iterate_succ_apply, Function.iterate_succ_apply]
    exact ih (Encoder.clocked_control_congr hc hr) (by rw [u.clocked_req, v.clocked_req, hr])

/-- Settles O46: the clock events change the encoder alone, and keep the agreement of the control parts. -/
theorem scheduleDoesNotDependOnTheData : Obligations.ScheduleDoesNotDependOnTheData := fun s s' n rest rest' hc hr =>
  ⟨_, _, run_clocks n s rest, run_clocks n s' rest', Encoder.clocked_iterate_control_congr hc hr n⟩

end Sys2Proof.Machine
end
